-- ==== Sys2Proof/Word.lean ====
section
/-! DEFINITION. The words of the hardware (00_scope.md R7, R9). -/

namespace Sys2Proof

/-- A byte, a character of the stream or of a field (R9). -/
abbrev Byte := BitVec 8

/-- A CSR, an operand `a` or `b`, a result (R7). -/
abbrev Word := BitVec 32

/-- A command word (R55). -/
abbrev CmdWord := BitVec 96

/-- A sum of bytes modulo 64: the checksum accumulators (R32, R33). -/
abbrev Residue := BitVec 6

end Sys2Proof
end

