-- ==== Sys2Proof/Syntax.lean ====
section
/-! DEFINITION. The twelve host operations (30_encoding.md R56, R58), each with the operand fields it uses and no
other: what an operation ignores (R61) is not part of it. -/

namespace Sys2Proof

/-- A decoded host operation. `wsel` is the raw width select; which values are legal is `Instr.WellFormed` (R59). -/
inductive Instr where
  /-- ENC (R73): encode `value` in the width `wsel` selects. -/
  | enc (wsel : BitVec 2) (value : Word)
  /-- DEC (R74): decode the packed field `field` of the width `wsel` selects. -/
  | dec (wsel : BitVec 2) (field : Word)
  /-- CSCLR (R83): start a checksum span. -/
  | csclr
  /-- CSADD (R84): add `byte` to the span. -/
  | csadd (byte : Byte)
  /-- CSGET (R85): the checksum of the span so far. -/
  | csget
  /-- CSVFY (R86): compare the checksum of the span with `claimed`. -/
  | csvfy (claimed : Byte)
  /-- CLASS (R91): classify the symbol whose first received byte is `s0`. -/
  | classify (s0 s1 : Byte)
  /-- RDSTART (R95): arm the reader; `cluster` is the field `c`, `first` is `a`, `last` is `b`. -/
  | rdstart (wsel : BitVec 2) (cluster : BitVec 12) (first last : Word)
  /-- RDREG (R102): read CSR number `number`, the field `c`. -/
  | rdreg (number : BitVec 12)
  /-- RDSAMP (R103): read sample `index`. -/
  | rdsamp (index : Word)
  /-- RDRAW (R104): read the byte of RAW at `addr`. -/
  | rdraw (addr : Word)
  /-- RDFLT (R105): read the fault bit of block `block`. -/
  | rdflt (block : Word)
  deriving DecidableEq, Repr

end Sys2Proof
end

