-- ==== Sys2Proof/WellFormed.lean ====
section
/-! DEFINITION. Which operations carry a legal width select (30_encoding.md R59; the column `wsel_legal` of the
operation table). Every other field is legal at every value of its width. -/

namespace Sys2Proof

/-- R59: `wsel = 3` is legal for nothing, and `wsel = 2` not for RDSTART. -/
def Instr.wellFormed : Instr → Bool
  | .enc wsel _ => wsel != 3#2
  | .dec wsel _ => wsel != 3#2
  | .rdstart wsel _ _ _ => wsel == 0#2 || wsel == 1#2
  | .csclr => true
  | .csadd _ => true
  | .csget => true
  | .csvfy _ => true
  | .classify _ _ => true
  | .rdreg _ => true
  | .rdsamp _ => true
  | .rdraw _ => true
  | .rdflt _ => true

/-- The operation's width select is legal for it. -/
abbrev Instr.WellFormed (i : Instr) : Prop := i.wellFormed = true

end Sys2Proof
end

