-- ==== Sys2Proof/Decode.lean ====
section
/-! DEFINITION. The command word: its fields (30_encoding.md R55), the decoder (R58, R59, R61, R62), total on all
96-bit words and rejecting by name, and the encoder written from the same tables. -/

namespace Sys2Proof

/-- Bits 95:92, the operation code (R55). -/
def opField (w : CmdWord) : BitVec 4 := w.extractLsb' 92 4

/-- Bits 91:90, the width select (R55). -/
def wselField (w : CmdWord) : BitVec 2 := w.extractLsb' 90 2

/-- Bits 75:64, the small operand (R55). -/
def cField (w : CmdWord) : BitVec 12 := w.extractLsb' 64 12

/-- Bits 63:32, the first operand (R55). -/
def aField (w : CmdWord) : Word := w.extractLsb' 32 32

/-- Bits 31:0, the second operand (R55). -/
def bField (w : CmdWord) : Word := w.extractLsb' 0 32

/-- The byte `a[7:0]` of an operand (R56). -/
def lowByte (a : Word) : Byte := a.extractLsb' 0 8

/-- The byte `a[15:8]` of an operand (R56). -/
def secondByte (a : Word) : Byte := a.extractLsb' 8 8

/-- Why a command word selects no operation (R62). Either is answered with ERR_ILLOP. -/
inductive DecodeError where
  /-- The operation code is reserved: 0x0, 0xD, 0xE or 0xF (R62). -/
  | reservedOp (op : BitVec 4)
  /-- The width select is not legal for the operation (R59). -/
  | illegalWidth (wsel : BitVec 2)
  deriving DecidableEq, Repr

/-- An operation if its width select is legal (R59), else the refusal by name. -/
def checkedWidth (wsel : BitVec 2) (i : Instr) : Except DecodeError Instr :=
  if i.WellFormed then .ok i else .error (.illegalWidth wsel)

/-- The operation a command word selects (R58's code map, R56's operand fields). Only `op` selects it; bits that R56
marks ignored are not looked at (R61). -/
def decode (w : CmdWord) : Except DecodeError Instr :=
  match opField w with
  | 0x1#4 => checkedWidth (wselField w) (.enc (wselField w) (aField w))
  | 0x2#4 => checkedWidth (wselField w) (.dec (wselField w) (aField w))
  | 0x3#4 => .ok .csclr
  | 0x4#4 => .ok (.csadd (lowByte (aField w)))
  | 0x5#4 => .ok .csget
  | 0x6#4 => .ok (.csvfy (lowByte (aField w)))
  | 0x7#4 => .ok (.classify (secondByte (aField w)) (lowByte (aField w)))
  | 0x8#4 => checkedWidth (wselField w) (.rdstart (wselField w) (cField w) (aField w) (bField w))
  | 0x9#4 => .ok (.rdreg (cField w))
  | 0xA#4 => .ok (.rdsamp (aField w))
  | 0xB#4 => .ok (.rdraw (aField w))
  | 0xC#4 => .ok (.rdflt (aField w))
  | op => .error (.reservedOp op)

/-- A command word put together from its fields, the ignored bits 89:76 zero (R55). -/
def commandWord (op : BitVec 4) (wsel : BitVec 2) (c : BitVec 12) (a b : Word) : CmdWord :=
  op ++ wsel ++ 0#14 ++ c ++ a ++ b

/-- A command word of an operation (R55, R56, R58), everything the operation ignores zero (log 11). -/
def encode : Instr → CmdWord
  | .enc wsel value => commandWord 0x1 wsel 0 value 0
  | .dec wsel field => commandWord 0x2 wsel 0 field 0
  | .csclr => commandWord 0x3 0 0 0 0
  | .csadd byte => commandWord 0x4 0 0 (byte.setWidth 32) 0
  | .csget => commandWord 0x5 0 0 0 0
  | .csvfy claimed => commandWord 0x6 0 0 (claimed.setWidth 32) 0
  | .classify s0 s1 => commandWord 0x7 0 0 ((s0 ++ s1).setWidth 32) 0
  | .rdstart wsel cluster first last => commandWord 0x8 wsel cluster first last
  | .rdreg number => commandWord 0x9 0 number 0 0
  | .rdsamp index => commandWord 0xA 0 0 index 0
  | .rdraw addr => commandWord 0xB 0 0 addr 0
  | .rdflt block => commandWord 0xC 0 0 block 0

/-- The bits of a command word that an operation reads (R56); every other bit is ignored (R61). -/
def usedMask : Instr → CmdWord
  | .enc _ _ => commandWord 0xF 3 0 0xFFFFFFFF 0
  | .dec _ _ => commandWord 0xF 3 0 0xFFFFFFFF 0
  | .csclr => commandWord 0xF 0 0 0 0
  | .csadd _ => commandWord 0xF 0 0 0xFF 0
  | .csget => commandWord 0xF 0 0 0 0
  | .csvfy _ => commandWord 0xF 0 0 0xFF 0
  | .classify _ _ => commandWord 0xF 0 0 0xFFFF 0
  | .rdstart _ _ _ _ => commandWord 0xF 3 0xFFF 0xFFFFFFFF 0xFFFFFFFF
  | .rdreg _ => commandWord 0xF 0 0xFFF 0 0
  | .rdsamp _ => commandWord 0xF 0 0 0xFFFFFFFF 0
  | .rdraw _ => commandWord 0xF 0 0 0xFFFFFFFF 0
  | .rdflt _ => commandWord 0xF 0 0 0xFFFFFFFF 0

/-- The operation the decoder reads from a word numbered as the operation table numbers it. A command word is one
96-bit transfer on `cmd_word[95:0]` (R34), so there is no byte order to undo: bit n of the number is bit n of the word. -/
def decodeTableWord (nbits w : Nat) : Option Instr :=
  if nbits ≤ 96 then (decode (BitVec.ofNat 96 w)).toOption else none

end Sys2Proof
end

