-- ==== Sys2Proof/Config.lean ====
section
/-! DEFINITION. What an instance of the hardware fixes and the spec leaves open: `HDR_LEN` and `RAW_DEPTH`
(00_scope.md R6, 93_implementation_defined.md U19; log 1). -/

namespace Sys2Proof

/-- The two open parameters (R6). -/
structure Params where
  /-- `HDR_LEN`: bytes of the header line, its terminator included. -/
  hdrLen : Nat
  /-- `RAW_DEPTH`: capacity of the sample buffer in bytes. -/
  rawDepth : Nat
  deriving DecidableEq, Repr

/-- R6's constraint on the pair, so that every counter fits 32 bits. -/
abbrev Params.Legal (p : Params) : Prop :=
  1 ≤ p.rawDepth ∧ p.hdrLen + 66 * (p.rawDepth / 64) + 66 < 2 ^ 32

/-- FREE VALUE. `RAW_DEPTH - 1` of the instance. 4164816767 is the largest `RAW_DEPTH` that R6's constraint allows
(with `HDR_LEN = 0`), so the type states a bound of the spec and nothing more. -/
opaque Config.rawDepthIndex : Fin 4164816767

/-- FREE VALUE. `HDR_LEN` of the instance, in the range R6's constraint leaves beside `RAW_DEPTH`. -/
opaque Config.hdrLenIndex : Fin ((4294967296 - 67 - 66 * ((Config.rawDepthIndex.val + 1) / 64)) + 1)

/-- The parameters of the instance `State.reset` is the reset state of. Nothing is known of them but `Params.Legal`. -/
def Config.params : Params where
  hdrLen := Config.hdrLenIndex.val
  rawDepth := Config.rawDepthIndex.val + 1

end Sys2Proof
end

