-- ==== Sys2Proof/Machine/State.lean ====
section
/-! DEFINITION. The state of the hardware (10_state.md R20, nothing else of the CORE), its ports as plain data
(R34 to R36; log 2, 4), the reasons to stop, and the state after reset (R39, R140). -/

namespace Sys2Proof.Machine

/-- STATUS.PH, the phase of the reader (R25). -/
inductive Phase where
  /-- 0: no read since reset. -/
  | idle
  /-- 1: a read is consuming the stream. -/
  | active
  /-- 2: the last read consumed all its bytes. -/
  | done
  /-- 3: the last read ended on a transport failure. -/
  | ioerr
  deriving DecidableEq, Repr

/-- STATUS.IOK, the I/O error kind (R25, R66). -/
inductive IoKind where
  /-- 0: none. -/
  | noError
  /-- 1: ShortRead. -/
  | shortRead
  /-- 2: Timeout. -/
  | timeout
  /-- 3: Closed. -/
  | closed
  deriving DecidableEq, Repr

/-- CSR 0, STATUS, by its fields (R25). Host operations only read it, so its reserved bits need no storage (log 10). -/
structure StatusReg where
  /-- PH, bits 1:0. -/
  ph : Phase
  /-- IOK, bits 3:2. -/
  iok : IoKind
  /-- ANYF, bit 4. -/
  anyf : Bool
  /-- CW, bit 5: false for 2 characters per sample, true for 3. -/
  cw : Bool
  deriving DecidableEq, Repr

/-- The response status codes (30_encoding.md R60). -/
inductive RspCode where
  /-- 0x0: the operation was performed. -/
  | ok
  /-- 0x1: reserved operation code or illegal width select. -/
  | errIllop
  /-- 0x2: a value or index outside its range. -/
  | errRange
  /-- 0x3: RDSTART with a cluster count of 0 or start ≥ end. -/
  | errParam
  /-- 0x4: RDSTART while a read is ACTIVE. -/
  | errBusy
  /-- 0x5: RDSAMP, RDRAW or RDFLT outside DONE. -/
  | errState
  deriving DecidableEq, Repr

/-- A response on the command port (R57). -/
structure Response where
  status : RspCode
  result : Word
  deriving DecidableEq, Repr

/-- What the environment drives at the ports in one clock cycle (R34, R35, R36), and, for a host step and a transport
step that fall in that cycle, which is first: the free choice of R125 (b) (log 8). The words and bytes themselves are
`State.cmds` and `State.stream`. -/
structure Cycle where
  /-- `rst`, sampled high. -/
  rst : Bool
  /-- `cmd_valid`: the host presents its next command word. -/
  cmdValid : Bool
  /-- `rx_valid`: the transport presents its next byte. -/
  rxValid : Bool
  /-- `rx_fail`, with `rx_fkind` when it is 1. -/
  rxFail : Option (BitVec 2)
  /-- R125 (b): the host step comes before the transport step. -/
  hostFirst : Bool
  deriving DecidableEq, Repr

/-- The four kinds of atomic step (R12), and the cycle in which none happens. -/
inductive StepKind where
  /-- `cmd(w)`. -/
  | cmd (w : CmdWord)
  /-- `rx(b)`. -/
  | rx (b : Byte)
  /-- `rx_fail(k)`, with the raw `rx_fkind`. -/
  | rxFail (kind : BitVec 2)
  /-- `reset`. -/
  | reset
  /-- Nothing happens at the ports: the machine waits, with no time-out, and keeps all state (R132, R149). -/
  | idle
  deriving DecidableEq, Repr

/-- The machine (R20), the response output and the environment's side of the ports. -/
structure State where
  /-- CSACC, the host checksum accumulator (R32). -/
  csacc : Residue
  /-- CSR 0 STATUS (R25). -/
  status : StatusReg
  /-- CSR 1 START (R26). -/
  startStep : Word
  /-- CSR 2 END (R26). -/
  endStep : Word
  /-- CSR 3 CLUSTER (R26). -/
  cluster : Word
  /-- CSR 4 SAMPLE_COUNT (R27). -/
  sampleCount : Word
  /-- CSR 5 BYTE_COUNT (R27). -/
  byteCount : Word
  /-- CSR 6 FULL_BLOCKS (R27). -/
  fullBlocks : Word
  /-- CSR 7 REMAINDER (R27). -/
  remainder : Word
  /-- CSR 8 POS, the stream position (R22, R28). -/
  pos : Word
  /-- CSR 9 WP, the RAW write pointer (R28). -/
  wp : Word
  /-- CSR 10 FAULT_COUNT (R29). -/
  faultCount : Word
  /-- CSR 11 HDRLEN, a constant of the instance (R30). -/
  hdrLen : Word
  /-- CSR 12 RAWDEPTH, a constant of the instance (R30). -/
  rawDepth : Word
  /-- RD_ACC, the reader's hidden checksum accumulator (R33). -/
  rdAcc : Residue
  /-- FAULT (R31): the indices k with FAULT[k] = 1, strictly ascending (log 10). -/
  faults : List Nat
  /-- RAW (R40): the bytes written since reset, addresses strictly ascending (log 6). -/
  raw : List Host.Cell
  /-- The response output: `none` is `rsp_valid = 0` (R34; log 4). -/
  rsp : Option Response
  /-- MODEL'S OWN: the command words the host will present, next first (R14, R34; log 2). -/
  cmds : List CmdWord
  /-- MODEL'S OWN: the bytes the transport holds, next first (R14, R35; log 2). -/
  stream : List Byte
  /-- MODEL'S OWN: the coming cycles, next first (R12; log 2). -/
  cycles : List Cycle
  deriving DecidableEq, Repr

/-- Reasons the model itself stops. Each is an access the spec gives no meaning; all are SAFE, and none can be raised
in a state that satisfies R38's invariants (`Machine.StateInv`). The spec's own faults are next states (R17). -/
inductive Fault where
  /-- Raised by `rawLoad`: a load of RAW outside `addr + n ≤ BYTE_COUNT` (R11) or at or above RAW_DEPTH (R40). Safe. -/
  | rawLoadOutside
  /-- Raised by `rawLoad`: a load of a byte nothing has written since reset (R39; log 6). Safe. -/
  | rawUnwritten
  /-- Raised by `rawStore`: a store to RAW at or above RAW_DEPTH (R40, R46). Safe. -/
  | rawStoreOutside
  /-- Raised by `faultBit` and `recordFault`: an index at or above MAX_BLOCKS (R31). Safe. -/
  | faultIndexOutside
  /-- Raised by `rxStep`: the stream position has no role, POS ≥ L (R97). Safe. -/
  | positionOutside
  deriving DecidableEq, Repr

/-- Reasons to give an instruction no meaning. No arm of `exec` uses it: all twelve operations are modelled. -/
inductive Refusal where
  /-- Raised by an arm of `exec` that has no meaning yet. Safe. -/
  | notModelled (mnemonic : String)
  deriving DecidableEq, Repr

/-- R39, R140: the machine right after reset, for an instance with parameters `p`, nothing driven at its ports. -/
def State.resetOf (p : Params) : State where
  csacc := 0
  status := ⟨.idle, .noError, false, false⟩
  startStep := 0
  endStep := 0
  cluster := 0
  sampleCount := 0
  byteCount := 0
  fullBlocks := 0
  remainder := 0
  pos := 0
  wp := 0
  faultCount := 0
  hdrLen := BitVec.ofNat 32 p.hdrLen
  rawDepth := BitVec.ofNat 32 p.rawDepth
  rdAcc := 0
  faults := []
  raw := []
  rsp := none
  cmds := []
  stream := []
  cycles := []

/-- The machine right after reset, for the instance whose parameters are the free values of `Config` (log 1, 3). -/
def State.reset : State := State.resetOf Config.params

end Sys2Proof.Machine
end

