-- ==== Sys2Proof/Machine/Operands.lean ====
section
/-! DEFINITION. Operand forms: width selects and field packing (30_encoding.md R59, 20_memory.md R42), the codes
carried in results (R57, R60) and on the receive port (R66). -/

namespace Sys2Proof.Machine

/-- Characters of a field by its width select: `wsel + 2` (R59). -/
def fieldWidth (wsel : BitVec 2) : Nat := wsel.toNat + 2

/-- `pack`: the first character in the most significant used byte, right-justified, upper bytes 0 (R42, R59). -/
def pack (cs : List Byte) : Word := cs.foldl (fun acc c => acc <<< 8 ||| c.setWidth 32) 0

/-- `unpack(x, w)`: the low `w` bytes of `x`, most significant first, the bytes above ignored (R59). -/
def unpack (x : Word) (w : Nat) : List Byte :=
  (List.range w).map fun i => x.extractLsb' (8 * (w - 1 - i)) 8

/-- The status code on `rsp[35:32]` (R60). -/
def RspCode.code : RspCode → BitVec 4
  | .ok => 0x0
  | .errIllop => 0x1
  | .errRange => 0x2
  | .errParam => 0x3
  | .errBusy => 0x4
  | .errState => 0x5

/-- The 36-bit response word (R57). -/
def Response.word (r : Response) : BitVec 36 := r.status.code ++ r.result

/-- The kind a raw `rx_fkind` stands for; 0 is treated as ShortRead (R35, R66). -/
def ioKindOf (fkind : BitVec 2) : IoKind :=
  match fkind with
  | 2#2 => .timeout
  | 3#2 => .closed
  | _ => .shortRead

end Sys2Proof.Machine
end

