-- ==== Sys2Proof/Machine/Flags.lean ====
section
/-! DEFINITION. The flags of the hardware: the fields of STATUS (10_state.md R23, R25), what each event makes of them,
and the outputs computed from them (R34 to R36). -/

namespace Sys2Proof.Machine

/-- The code of PH (R25). -/
def Phase.code : Phase → BitVec 2
  | .idle => 0
  | .active => 1
  | .done => 2
  | .ioerr => 3

/-- The code of IOK (R25, R66). -/
def IoKind.code : IoKind → BitVec 2
  | .noError => 0
  | .shortRead => 1
  | .timeout => 2
  | .closed => 3

/-- CSR 0 as software reads it: reserved bits 31:6, CW, ANYF, IOK, PH (R25). -/
def statusWord (r : StatusReg) : Word :=
  0#26 ++ BitVec.ofBool r.cw ++ BitVec.ofBool r.anyf ++ r.iok.code ++ r.ph.code

/-- STATUS after an accepted RDSTART: CW = `wsel[0]`, ANYF = 0, IOK = 0, PH = 1 (R95). -/
def armedStatus (wsel : BitVec 2) : StatusReg := ⟨.active, .noError, false, wsel.getLsbD 0⟩

/-- STATUS after a transport failure of kind `k`: PH = 3, IOK = `k`, the rest unchanged (R100, R126). -/
def failedStatus (r : StatusReg) (k : IoKind) : StatusReg := { r with ph := .ioerr, iok := k }

/-- STATUS after a recorded checksum mismatch: ANYF = 1 (R99). -/
def faultedStatus (r : StatusReg) : StatusReg := { r with anyf := true }

/-- STATUS after the last byte of a read: PH = 2 (R101). -/
def doneStatus (r : StatusReg) : StatusReg := { r with ph := .done }

/-- Characters per sample of the current or last read: `w = 2 + CW` (R27, R103). -/
def sampleWidth (r : StatusReg) : Nat := 2 + r.cw.toNat

/-- Output `rd_ph` (R36). -/
def rdPh (s : State) : BitVec 2 := s.status.ph.code

/-- Output `rx_ready`: 1 exactly when PH = 1 (R35). -/
def rxReady (s : State) : Bool := decide (s.status.ph = .active)

/-- Output `cmd_ready` between two steps: 1, since a command has its response when its step ends (R12, R34; log 5). -/
def cmdReady (_ : State) : Bool := true

/-- Output `rsp_valid` (R34). -/
def rspValid (s : State) : Bool := s.rsp.isSome

end Sys2Proof.Machine
end

