-- ==== Sys2Proof/Machine/Ops.lean ====
section
/-! DEFINITION. The named operations on the state: answering the host (00_scope.md R11), the one refusal of a host
operation (60_exceptions.md R120), the entry into IOERR (R126), RAW (20_memory.md R40, R44), FAULT (10_state.md R31),
the CSR file (R24) and the reset step (70_reset_and_hazards.md R140). -/

namespace Sys2Proof.Machine

/-- What a step answers. -/
abbrev StepResult := Host.Outcome State Fault Refusal

/-! ### Writes of one state element -/

/-- The response output becomes `r`. -/
def State.withRsp (s : State) (r : Option Response) : State := { s with rsp := r }

/-- `CSACC <- v`. -/
def State.withCsacc (s : State) (v : Residue) : State := { s with csacc := v }

/-- `RD_ACC <- v`. -/
def State.withRdAcc (s : State) (v : Residue) : State := { s with rdAcc := v }

/-- `csr[STATUS] <- r`. -/
def State.withStatus (s : State) (r : StatusReg) : State := { s with status := r }

/-- `pos <- p`. -/
def State.withPos (s : State) (p : Word) : State := { s with pos := p }

/-- The contents of RAW become `m` and `csr[WP] <- p`. -/
def State.withRaw (s : State) (m : List Host.Cell) (p : Word) : State := { s with raw := m, wp := p }

/-- FAULT becomes `ks` and `csr[FAULT_COUNT] <- n`. -/
def State.withFaults (s : State) (ks : List Nat) (n : Word) : State := { s with faults := ks, faultCount := n }

/-- The environment's side of the ports. -/
def State.withPorts (s : State) (cmds : List CmdWord) (stream : List Byte) (cycles : List Cycle) : State :=
  { s with cmds := cmds, stream := stream, cycles := cycles }

/-! ### Answers to the host -/

/-- `respond(OK, result)` (R11). -/
def respond (s : State) (result : Word) : StepResult := .next (s.withRsp (some ⟨.ok, result⟩))

/-- `raise ERR_X`: the one way a host operation is refused. The response is `(e, 0)` and no state element changes
(R11, R120); nothing is saved and control goes nowhere (R126). -/
def raise (s : State) (e : RspCode) : StepResult := .next (s.withRsp (some ⟨e, 0⟩))

/-! ### The CSR file -/

/-- `csr[n]`; there is none above 12 (R24, R102). -/
def csr (s : State) (n : Nat) : Option Word :=
  match n with
  | 0 => some (statusWord s.status)
  | 1 => some s.startStep
  | 2 => some s.endStep
  | 3 => some s.cluster
  | 4 => some s.sampleCount
  | 5 => some s.byteCount
  | 6 => some s.fullBlocks
  | 7 => some s.remainder
  | 8 => some s.pos
  | 9 => some s.wp
  | 10 => some s.faultCount
  | 11 => some s.hdrLen
  | 12 => some s.rawDepth
  | _ => none

/-! ### RAW -/

/-- The byte of RAW at an address, if one has been written since reset: an unwritten byte has no value (log 6). -/
def rawGet : List Host.Cell → Nat → Option Byte
  | [], _ => none
  | (a, v) :: m, k => if k = a then some v else rawGet m k

/-- RAW with one byte written, in canonical form. -/
def rawSet : List Host.Cell → Nat → Byte → List Host.Cell
  | [], k, v => [(k, v)]
  | (a, x) :: m, k, v =>
    if k < a then (k, v) :: (a, x) :: m
    else if k = a then (k, v) :: m
    else (a, x) :: rawSet m k v

/-- The canonical form: addresses strictly ascending. No entry can equal what an unlisted address reads as, since that
has no value. -/
def Memory.wf (m : List Host.Cell) : Bool := decide (m.Pairwise fun x y => x.1 < y.1)

/-- The `n` bytes of RAW from `addr`, if all have been written. -/
def rawBytes (m : List Host.Cell) (addr : Nat) : Nat → Option (List Byte)
  | 0 => some []
  | n + 1 =>
    match rawGet m addr, rawBytes m (addr + 1) n with
    | some b, some bs => some (b :: bs)
    | _, _ => none

/-- `MemRead(RAW, addr, n)`, defined only inside BYTE_COUNT (R11) and RAW_DEPTH (R40). -/
def rawLoad (s : State) (addr n : Nat) : Except Fault (List Byte) :=
  if addr + n ≤ s.byteCount.toNat ∧ addr + n ≤ s.rawDepth.toNat then
    match rawBytes s.raw addr n with
    | some bs => .ok bs
    | none => .error .rawUnwritten
  else .error .rawLoadOutside

/-- `MemWrite(RAW, csr[WP], 1, b); csr[WP] <- csr[WP] + 1` (R99): the only store of the hardware (R44). -/
def rawStore (s : State) (b : Byte) : Except Fault State :=
  if s.wp.toNat < s.rawDepth.toNat then .ok (s.withRaw (rawSet s.raw s.wp.toNat b) (s.wp + 1))
  else .error .rawStoreOutside

/-! ### FAULT -/

/-- `MAX_BLOCKS`, the number of entries of FAULT (R6). -/
def maxBlocks (s : State) : Nat := s.rawDepth.toNat / 64 + 1

/-- The ascending list of set indices with `k` among them. -/
def faultSet : List Nat → Nat → List Nat
  | [], k => [k]
  | j :: ks, k => if k < j then k :: j :: ks else if k = j then j :: ks else j :: faultSet ks k

/-- `FAULT[k]` (R31). -/
def faultBit (s : State) (k : Nat) : Except Fault Bool :=
  if k < maxBlocks s then .ok (s.faults.contains k) else .error .faultIndexOutside

/-- What a SUM byte that differs from the block's checksum records: FAULT_COUNT counts `k` if it is new, FAULT[k] and
ANYF become 1 (R99, R123). -/
def recordFault (s : State) (k : Nat) : Except Fault State :=
  if k < maxBlocks s then
    .ok ((s.withFaults (faultSet s.faults k)
      (if s.faults.contains k then s.faultCount else s.faultCount + 1)).withStatus (faultedStatus s.status))
  else .error .faultIndexOutside

/-! ### Entry into IOERR, and reset -/

/-- The hardware's only asynchronous exception: the reader enters IOERR with the kind recorded and everything else
kept (R100, R126). There is no return from it (R127). -/
def enterIoErr (s : State) (k : IoKind) : State := s.withStatus (failedStatus s.status k)

/-- The `reset` step (R140): every element at its reset value, HDRLEN and RAWDEPTH kept, what the environment holds at
its side of the ports untouched (R141). RAW holds no byte afterwards, since its contents are unspecified (R39; log 6). -/
def resetStep (s : State) : State :=
  { State.resetOf ⟨s.hdrLen.toNat, s.rawDepth.toNat⟩ with
    hdrLen := s.hdrLen
    rawDepth := s.rawDepth
    cmds := s.cmds
    stream := s.stream
    cycles := s.cycles }

end Sys2Proof.Machine
end

