-- ==== Sys2Proof/Machine/Classifier.lean ====
section
/-! DEFINITION. The command classifier: the fifteen symbols and their kinds (42_classifier.md R90, 30_encoding.md R64;
fifteen by 90_conflicts.md C1) and the operation CLASS (R91). -/

namespace Sys2Proof.Machine

/-- CommandKind: fifteen kinds and Unknown (R64). -/
inductive CommandKind where
  | acquireMultiScan3Char
  | acquireMultiScan2Char
  | acquireLatest3Char
  | acquireLatest2Char
  | laserOn
  | laserOff
  | reset
  | timeAdjust
  | setBitRate
  | setMotorSpeed
  | setSensitivity
  | simulateMalfunction
  | getVersion
  | getSpecs
  | getState
  | unknown
  deriving DecidableEq, Repr

/-- The code of a kind, the result of CLASS (R64). -/
def kindCode : CommandKind → BitVec 4
  | .acquireMultiScan3Char => 0
  | .acquireMultiScan2Char => 1
  | .acquireLatest3Char => 2
  | .acquireLatest2Char => 3
  | .laserOn => 4
  | .laserOff => 5
  | .reset => 6
  | .timeAdjust => 7
  | .setBitRate => 8
  | .setMotorSpeed => 9
  | .setSensitivity => 10
  | .simulateMalfunction => 11
  | .getVersion => 12
  | .getSpecs => 13
  | .getState => 14
  | .unknown => 15

/-- One row of R90's table. -/
structure SymbolRow where
  s0 : Byte
  s1 : Byte
  kind : CommandKind
  deriving DecidableEq, Repr

/-- R90's table, in its order; the letters' byte values are R90's (log 14). -/
def symbolTable : List SymbolRow :=
  [ ⟨0x4D, 0x44, .acquireMultiScan3Char⟩  -- MD
  , ⟨0x4D, 0x53, .acquireMultiScan2Char⟩  -- MS
  , ⟨0x47, 0x44, .acquireLatest3Char⟩     -- GD
  , ⟨0x47, 0x53, .acquireLatest2Char⟩     -- GS
  , ⟨0x42, 0x4D, .laserOn⟩                -- BM
  , ⟨0x51, 0x54, .laserOff⟩               -- QT
  , ⟨0x52, 0x53, .reset⟩                  -- RS
  , ⟨0x54, 0x4D, .timeAdjust⟩             -- TM
  , ⟨0x53, 0x53, .setBitRate⟩             -- SS
  , ⟨0x43, 0x52, .setMotorSpeed⟩          -- CR
  , ⟨0x48, 0x53, .setSensitivity⟩         -- HS
  , ⟨0x44, 0x42, .simulateMalfunction⟩    -- DB
  , ⟨0x56, 0x56, .getVersion⟩             -- VV
  , ⟨0x50, 0x50, .getSpecs⟩               -- PP
  , ⟨0x49, 0x49, .getState⟩ ]             -- II

/-- `classify(s0, s1)`: the kind of the first row whose bytes match exactly, else Unknown (R90). -/
def classifySymbol (s0 s1 : Byte) : CommandKind :=
  match symbolTable.find? fun r => r.s0 == s0 && r.s1 == s1 with
  | some r => r.kind
  | none => .unknown

/-- CLASS (R91). -/
def execClassify (s0 s1 : Byte) (s : State) : Host.Outcome State Fault Refusal :=
  respond s ((kindCode (classifySymbol s0 s1)).setWidth 32)

end Sys2Proof.Machine
end

