-- ==== Sys2Proof/Machine/Codec.lean ====
section
/-! DEFINITION. The value codec: `enc`, `dec`, `in_alphabet` (40_value_codec.md R70 to R72) and the operations ENC and
DEC (R73, R74). -/

namespace Sys2Proof.Machine

/-- `OFFSET`, added to a 6-bit group to make a character (00_scope.md R5). -/
def charOffset : Nat := 0x30

/-- `enc(v, w)`: the `w` groups of `v`, most significant first, each plus the offset (R70). Meant for `v < 64 ^ w`. -/
def enc (v w : Nat) : List Byte :=
  (List.range w).map fun i => BitVec.ofNat 8 (((v >>> (6 * (w - 1 - i))) &&& 0x3F) + charOffset)

/-- The group of a character: `((c - 0x30) mod 256)[5:0]` (R71; outside the alphabet: log 12). -/
def group (c : Byte) : BitVec 6 := (c - BitVec.ofNat 8 charOffset).extractLsb' 0 6

/-- `dec(cs)` (R71). -/
def dec (cs : List Byte) : Nat := cs.foldl (fun acc c => (acc <<< 6) ||| (group c).toNat) 0

/-- `in_alphabet(cs)`: every byte lies in 0x30..0x6F (R63, R72). -/
def inAlphabet (cs : List Byte) : Bool := cs.all fun c => decide (0x30 ≤ c.toNat ∧ c.toNat ≤ 0x6F)

/-- ENC (R73). -/
def execEnc (wsel : BitVec 2) (value : Word) (s : State) : Host.Outcome State Fault Refusal :=
  if wsel = 3#2 then raise s .errIllop
  else if 64 ^ fieldWidth wsel ≤ value.toNat then raise s .errRange
  else respond s (pack (enc value.toNat (fieldWidth wsel)))

/-- DEC (R74). -/
def execDec (wsel : BitVec 2) (field : Word) (s : State) : Host.Outcome State Fault Refusal :=
  if wsel = 3#2 then raise s .errIllop
  else respond s (BitVec.ofNat 32 (dec (unpack field (fieldWidth wsel))))

end Sys2Proof.Machine
end

