-- ==== Sys2Proof/Machine/Checksum.lean ====
section
/-! DEFINITION. The checksum calculator: `checksum`, `verify` (41_checksum.md R80, R81), the 6-bit running residue
(R82 law 1), and the operations CSCLR, CSADD, CSGET, CSVFY (R83 to R86). -/

namespace Sys2Proof.Machine

/-- The natural sum of a list of bytes (00_scope.md R10). -/
def byteSum (bs : List Byte) : Nat := (bs.map BitVec.toNat).sum

/-- `checksum(bs)` (R80). -/
def checksum (bs : List Byte) : Byte := BitVec.ofNat 8 (byteSum bs % 64 + charOffset)

/-- `verify(bs, x)`, compared on all 8 bits (R81). -/
def verify (bs : List Byte) (x : Byte) : Bool := checksum bs == x

/-- `(acc + b) mod 64`, a byte added to a running residue (R84, R99). -/
def addResidue (acc : Residue) (b : Byte) : Residue := BitVec.ofNat 6 (acc.toNat + b.toNat)

/-- `acc + 0x30`, the checksum byte of a running residue (R85, R99). -/
def sumByte (acc : Residue) : Byte := BitVec.ofNat 8 (acc.toNat + charOffset)

/-- CSCLR (R83). -/
def execCsclr (s : State) : Host.Outcome State Fault Refusal := respond (s.withCsacc 0) 0

/-- CSADD (R84). -/
def execCsadd (byte : Byte) (s : State) : Host.Outcome State Fault Refusal :=
  respond (s.withCsacc (addResidue s.csacc byte)) 0

/-- CSGET (R85). -/
def execCsget (s : State) : Host.Outcome State Fault Refusal := respond s ((sumByte s.csacc).setWidth 32)

/-- CSVFY (R86). -/
def execCsvfy (claimed : Byte) (s : State) : Host.Outcome State Fault Refusal :=
  respond s (if sumByte s.csacc = claimed then 1 else 0)

end Sys2Proof.Machine
end

