-- ==== Sys2Proof/Machine/Reader.lean ====
section
/-! DEFINITION. The block reader: the reply shape (43_block_reader.md R95), the stream's length and roles (R96, R97),
the operations RDSTART, RDREG, RDSAMP, RDRAW, RDFLT (R95, R102 to R105) and the transport events `rx` and `rx_fail`
(R99, R100). -/

namespace Sys2Proof.Machine

/-- `BLOCK_LEN`, payload bytes of a full block (00_scope.md R5). -/
def blockLen : Nat := 64

/-- Stream bytes of a full block: payload, checksum byte, one terminator (R5, R96). -/
def blockSpan : Nat := blockLen + 2

/-- The four quantities of the reply shape (R95). -/
structure Shape where
  sampleCount : Nat
  byteCount : Nat
  fullBlocks : Nat
  remainder : Nat
  deriving DecidableEq, Repr

/-- `shape(start, end, cluster, w)`, over naturals with no wrap (R95). Meant for `first < last` and `cluster ≥ 1`. -/
def shape (first last cluster w : Nat) : Shape where
  sampleCount := (last - first + 1) / cluster
  byteCount := (last - first + 1) / cluster * w
  fullBlocks := (last - first + 1) / cluster * w / blockLen
  remainder := (last - first + 1) / cluster * w % blockLen

/-- What the byte at a stream position is (R97). -/
inductive Role where
  /-- A byte of the header line, discarded. -/
  | hdr
  /-- Payload byte `o` of block `k`. -/
  | pay (k o : Nat)
  /-- The checksum byte of block `k`. -/
  | sum (k : Nat)
  /-- A line terminator, discarded. -/
  | term
  deriving DecidableEq, Repr

/-- `role(i)` for a header of `h` bytes, `fb` full blocks and a final block of `rem` payload bytes (R97). -/
def role (h fb rem i : Nat) : Role :=
  if i < h then .hdr
  else if i < h + blockSpan * fb then
    if (i - h) % blockSpan < blockLen then .pay ((i - h) / blockSpan) ((i - h) % blockSpan)
    else if (i - h) % blockSpan = blockLen then .sum ((i - h) / blockSpan)
    else .term
  else if i - (h + blockSpan * fb) < rem then .pay fb (i - (h + blockSpan * fb))
  else if i - (h + blockSpan * fb) = rem then .sum fb
  else .term

/-- `L`, the number of stream bytes of a read: `H + 66 * fb + rem + 3` (R96). -/
def streamLength (h fb rem : Nat) : Nat := h + blockSpan * fb + rem + 3

/-- The role of position `i` in the current or last read. -/
def State.roleAt (s : State) (i : Nat) : Role :=
  role s.hdrLen.toNat s.fullBlocks.toNat s.remainder.toNat i

/-- `L` of the current or last read. -/
def State.streamLen (s : State) : Nat :=
  streamLength s.hdrLen.toNat s.fullBlocks.toNat s.remainder.toNat

/-- What an accepted RDSTART writes (R95): the parameters, the shape, the progress, FAULT and STATUS; not RAW (R52). -/
def armReader (s : State) (wsel : BitVec 2) (cluster : BitVec 12) (first last : Word) (sh : Shape) : State :=
  { s with
    startStep := first
    endStep := last
    cluster := cluster.setWidth 32
    sampleCount := BitVec.ofNat 32 sh.sampleCount
    byteCount := BitVec.ofNat 32 sh.byteCount
    fullBlocks := BitVec.ofNat 32 sh.fullBlocks
    remainder := BitVec.ofNat 32 sh.remainder
    pos := 0
    wp := 0
    rdAcc := 0
    faults := []
    faultCount := 0
    status := armedStatus wsel }

/-- RDSTART (R95), its refusals in the order of R122. -/
def execRdstart (wsel : BitVec 2) (cluster : BitVec 12) (first last : Word) (s : State) :
    Host.Outcome State Fault Refusal :=
  if 2 ≤ wsel.toNat then raise s .errIllop
  else if s.status.ph = .active then raise s .errBusy
  else if cluster = 0 ∨ last.toNat ≤ first.toNat then raise s .errParam
  else if s.rawDepth.toNat < (shape first.toNat last.toNat cluster.toNat (fieldWidth wsel)).byteCount then
    raise s .errRange
  else
    respond (armReader s wsel cluster first last
      (shape first.toNat last.toNat cluster.toNat (fieldWidth wsel))) 0

/-- RDREG (R102). -/
def execRdreg (number : BitVec 12) (s : State) : Host.Outcome State Fault Refusal :=
  match csr s number.toNat with
  | some v => respond s v
  | none => raise s .errRange

/-- RDSAMP (R103). -/
def execRdsamp (index : Word) (s : State) : Host.Outcome State Fault Refusal :=
  if s.status.ph ≠ .done then raise s .errState
  else if s.sampleCount.toNat ≤ index.toNat then raise s .errRange
  else
    match rawLoad s (index.toNat * sampleWidth s.status) (sampleWidth s.status) with
    | .ok bs => respond s (BitVec.ofNat 32 (dec bs))
    | .error f => .fault f

/-- RDRAW (R104). -/
def execRdraw (addr : Word) (s : State) : Host.Outcome State Fault Refusal :=
  if s.status.ph ≠ .done then raise s .errState
  else if s.byteCount.toNat ≤ addr.toNat then raise s .errRange
  else
    match rawLoad s addr.toNat 1 with
    | .ok bs => respond s (pack bs)
    | .error f => .fault f

/-- RDFLT (R105). -/
def execRdflt (block : Word) (s : State) : Host.Outcome State Fault Refusal :=
  if s.status.ph ≠ .done then raise s .errState
  else if s.fullBlocks.toNat < block.toNat then raise s .errRange
  else
    match faultBit s block.toNat with
    | .ok f => respond s ((BitVec.ofBool f).setWidth 32)
    | .error f => .fault f

/-- What the byte `b` does by its role, before the position moves (R99). -/
def consumeByte (s : State) (r : Role) (b : Byte) : Except Fault State :=
  match r with
  | .hdr => .ok s
  | .term => .ok s
  | .pay _ _ =>
    match rawStore s b with
    | .ok t => .ok (t.withRdAcc (addResidue s.rdAcc b))
    | .error f => .error f
  | .sum k =>
    if b = sumByte s.rdAcc then .ok (s.withRdAcc 0)
    else
      match recordFault s k with
      | .ok t => .ok (t.withRdAcc 0)
      | .error f => .error f

/-- `pos <- i + 1`, and PH = 2 when that is L (R99, R101). -/
def advance (s : State) (i : Nat) : State :=
  if i + 1 = s.streamLen then (s.withPos (BitVec.ofNat 32 (i + 1))).withStatus (doneStatus s.status)
  else s.withPos (BitVec.ofNat 32 (i + 1))

/-- The `rx(b)` step (R99), taken only while PH = 1 (R98). It gives no response. -/
def rxStep (b : Byte) (s : State) : StepResult :=
  if s.pos.toNat < s.streamLen then
    match consumeByte s (s.roleAt s.pos.toNat) b with
    | .ok t => .next ((advance t s.pos.toNat).withRsp none)
    | .error f => .fault f
  else .fault .positionOutside

/-- The `rx_fail(k)` step (R100), with the raw `rx_fkind` (R35). It gives no response. -/
def rxFailStep (fkind : BitVec 2) (s : State) : State :=
  if s.status.ph = .active then (enterIoErr s (ioKindOf fkind)).withRsp none
  else s.withRsp none

end Sys2Proof.Machine
end

