-- ==== Sys2Proof/Machine/Dispatch.lean ====
section
/-! DEFINITION. The dispatch of the twelve host operations to their meanings (30_encoding.md R58). -/

namespace Sys2Proof.Machine

def exec (i : Instr) (s : State) : Host.Outcome State Fault Refusal :=
  match i with
  | .enc wsel value => Sys2Proof.Machine.execEnc wsel value s
  | .dec wsel field => Sys2Proof.Machine.execDec wsel field s
  | .csclr => Sys2Proof.Machine.execCsclr s
  | .csadd byte => Sys2Proof.Machine.execCsadd byte s
  | .csget => Sys2Proof.Machine.execCsget s
  | .csvfy claimed => Sys2Proof.Machine.execCsvfy claimed s
  | .classify s0 s1 => Sys2Proof.Machine.execClassify s0 s1 s
  | .rdstart wsel cluster first last => Sys2Proof.Machine.execRdstart wsel cluster first last s
  | .rdreg number => Sys2Proof.Machine.execRdreg number s
  | .rdsamp index => Sys2Proof.Machine.execRdsamp index s
  | .rdraw addr => Sys2Proof.Machine.execRdraw addr s
  | .rdflt block => Sys2Proof.Machine.execRdflt block s

end Sys2Proof.Machine
end

