-- ==== Sys2Proof/Machine/Ports.lean ====
section
/-! DEFINITION. What the ports of one cycle offer (10_state.md R34 to R36) and which atomic step comes next
(00_scope.md R12, 60_exceptions.md R125, 70_reset_and_hazards.md R141; log 2, 7, 8). -/

namespace Sys2Proof.Machine

/-- The transport's step in cycle `c`, with the state after it is taken from the port: a failure wins over a byte and
leaves the byte with the transport; a byte is taken only while `rx_ready = 1` (R35, R98, R125 a). -/
def transportEvent (c : Cycle) (s : State) : Option (StepKind × State) :=
  match c.rxFail with
  | some k => some (.rxFail k, s)
  | none =>
    match c.rxValid && rxReady s, s.stream with
    | true, b :: bs => some (.rx b, s.withPorts s.cmds bs s.cycles)
    | _, _ => none

/-- The host's step in cycle `c`, with the state after its command word is taken from the port (R34). -/
def hostEvent (c : Cycle) (s : State) : Option (StepKind × State) :=
  match c.cmdValid, s.cmds with
  | true, w :: ws => some (.cmd w, s.withPorts ws s.stream s.cycles)
  | _, _ => none

/-- The cycle after its host step has been taken. -/
def Cycle.withoutCmd (c : Cycle) : Cycle := { c with cmdValid := false }

/-- The cycle after its transport step has been taken. -/
def Cycle.withoutRx (c : Cycle) : Cycle := { c with rxValid := false, rxFail := none }

/-- The state with the coming cycles replaced. -/
def State.withCycles (s : State) (cycles : List Cycle) : State := s.withPorts s.cmds s.stream cycles

/-- The step that cycle `c` gives first, the cycles `cs` coming after it. Reset wins over everything and drops the
command presented in its cycle (R125 d, R141; log 7). Two steps of one cycle are taken one after the other, in the order
the cycle chooses (R125 b). -/
def nextOfCycle (c : Cycle) (cs : List Cycle) (s : State) : StepKind × State :=
  if c.rst then (.reset, s.withPorts (if c.cmdValid then s.cmds.tail else s.cmds) s.stream cs)
  else
    match hostEvent c s, transportEvent c s with
    | some h, none => (h.1, h.2.withCycles cs)
    | none, some t => (t.1, t.2.withCycles cs)
    | some h, some t =>
      if c.hostFirst then (h.1, h.2.withCycles (c.withoutCmd :: cs))
      else (t.1, t.2.withCycles (c.withoutRx :: cs))
    | none, none => (.idle, s.withCycles cs)

/-- The next atomic step and the state it is taken in (R12). With no cycle driven, nothing happens. THE PLACE WHERE A RUN
DOES NOT END (R17 d, R98, R149): while PH = 1 and the transport presents neither a byte nor a failure, every step is the
host's or `idle` and the phase stays ACTIVE, for ever unless the transport is fair (`Machine.WaitsForTransport`). -/
def nextStep (s : State) : StepKind × State :=
  match s.cycles with
  | [] => (.idle, s)
  | c :: cs => nextOfCycle c cs s

/-- The cycle in which the host presents a command and nothing else happens. -/
def Cycle.command : Cycle := ⟨false, true, false, none, true⟩

/-- `s` with the host presenting command word `w` next (R34). -/
def State.presenting (s : State) (w : CmdWord) : State :=
  s.withPorts (w :: s.cmds) s.stream (Cycle.command :: s.cycles)

end Sys2Proof.Machine
end

