-- ==== Sys2Proof/Machine/Step.lean ====
section
/-! DEFINITION. One atomic step of the machine (00_scope.md R12). -/

namespace Sys2Proof.Machine

/-- The `cmd(w)` step: the word selects an operation, or is refused with ERR_ILLOP (30_encoding.md R62). -/
def runCommand (w : CmdWord) (s : State) : Host.Outcome State Fault Refusal :=
  match decode w with
  | .ok i => exec i s
  | .error _ => raise s .errIllop

/-- One step (R12): the environment's next event, and what it does. A step without a command gives no response. -/
def step (s : State) : Host.Outcome State Fault Refusal :=
  match nextStep s with
  | (.cmd w, t) => runCommand w t
  | (.rx b, t) => rxStep b t
  | (.rxFail k, t) => .next (rxFailStep k t)
  | (.reset, t) => .next (resetStep t)
  | (.idle, t) => .next (t.withRsp none)

/-- `s` with the command word whose bits are `w` on the command port, in a cycle in which nothing else happens: the very
next step is `cmd` of that word (log 3). A command word has 96 bits, so every bit above `nbits` is 0. -/
def State.withFetchWord (s : State) (nbits w : Nat) : State := s.presenting (BitVec.ofNat 96 (w % 2 ^ nbits))

end Sys2Proof.Machine
end

