-- ==== Sys2Proof/Safety.lean ====
section
/-! DEFINITION. The terms claims use: the invariants of the state (10_state.md R25, R26, R27, R31, R33, R38), runs of
operations and of stream bytes, and what a completed read is measured against (43_block_reader.md R106). -/

namespace Sys2Proof.Machine

/-! ### The stream of the current or last read -/

/-- A payload role. -/
def Role.isPay : Role → Bool
  | .pay _ _ => true
  | _ => false

/-- How many positions below `n` have a payload role (R38 e). -/
def payCount (s : State) (n : Nat) : Nat := ((List.range n).filter fun i => (s.roleAt i).isPay).length

/-- The stream position of the checksum byte of block `k` (R106, `s_k`). -/
def sumPosition (s : State) (k : Nat) : Nat :=
  if k < s.fullBlocks.toNat then s.hdrLen.toNat + 66 * k + 64
  else s.hdrLen.toNat + 66 * s.fullBlocks.toNat + s.remainder.toNat

/-- The payload of block `k` in a stream `bs` (R106, `P_k`). -/
def blockPayload (s : State) (bs : List Byte) (k : Nat) : List Byte :=
  if k < s.fullBlocks.toNat then (bs.drop (s.hdrLen.toNat + 66 * k)).take 64
  else (bs.drop (s.hdrLen.toNat + 66 * s.fullBlocks.toNat)).take s.remainder.toNat

/-- The payload of all blocks in order, `P_0 ++ P_1 ++ ... ++ P_fb` (R106). -/
def streamPayload (s : State) (bs : List Byte) : List Byte :=
  (List.range (s.fullBlocks.toNat + 1)).flatMap (blockPayload s bs)

/-! ### Invariants -/

/-- The invariants of the state: R38 (a) to (f), with R25's, R26's, R27's, R31's of the elements they name, RAW in its
canonical form, inside RAW_DEPTH and written below WP (R39, R44), and R6's constraint on the constants. R38 (g) is in
the types. -/
structure StateInv (s : State) : Prop where
  /-- R6. -/
  params : Params.Legal ⟨s.hdrLen.toNat, s.rawDepth.toNat⟩
  /-- R38 (a). -/
  idleClear : s.status.ph = .idle →
    s.startStep = 0 ∧ s.endStep = 0 ∧ s.cluster = 0 ∧ s.sampleCount = 0 ∧ s.byteCount = 0 ∧ s.fullBlocks = 0 ∧
      s.remainder = 0 ∧ s.pos = 0 ∧ s.wp = 0 ∧ s.faultCount = 0 ∧ s.faults = [] ∧ s.rdAcc = 0
  /-- R26, R38 (b). -/
  operands : s.status.ph ≠ .idle →
    s.startStep.toNat < s.endStep.toNat ∧ 1 ≤ s.cluster.toNat ∧ s.cluster.toNat ≤ 4095
  /-- R27, R38 (b). -/
  shape : s.status.ph ≠ .idle →
    s.sampleCount.toNat = (s.endStep.toNat - s.startStep.toNat + 1) / s.cluster.toNat ∧
      s.byteCount.toNat = s.sampleCount.toNat * sampleWidth s.status ∧
      s.fullBlocks.toNat = s.byteCount.toNat / 64 ∧ s.remainder.toNat = s.byteCount.toNat % 64 ∧
      s.byteCount.toNat ≤ s.rawDepth.toNat
  /-- R38 (c), (d): a failed read has a byte left, as an active one does (R100). -/
  position : (s.status.ph = .done → s.pos.toNat = s.streamLen) ∧
    (s.status.ph = .active ∨ s.status.ph = .ioerr → s.pos.toNat < s.streamLen)
  /-- R38 (e). -/
  payload : s.status.ph ≠ .idle → s.wp.toNat = payCount s s.pos.toNat ∧ s.wp.toNat ≤ s.byteCount.toNat
  /-- R29, R38 (f). -/
  faultCount : s.faultCount.toNat = s.faults.length ∧ (s.status.anyf = true ↔ s.faults ≠ [])
  /-- R31, R99 (e): FAULT is ascending, and set only for blocks whose checksum byte has been consumed. -/
  faults : s.faults.Pairwise (· < ·) ∧ ∀ k ∈ s.faults, k ≤ s.fullBlocks.toNat ∧ sumPosition s k < s.pos.toNat
  /-- R25. -/
  errorKind : s.status.iok ≠ .noError ↔ s.status.ph = .ioerr
  /-- Log 6: the canonical form of RAW. -/
  rawWf : Memory.wf s.raw = true
  /-- R40, R46: no byte of RAW lies at or above RAW_DEPTH. -/
  rawInside : ∀ c ∈ s.raw, c.1 < s.rawDepth.toNat
  /-- R39, R44: every address below WP has been written. -/
  rawWritten : ∀ a < s.wp.toNat, (rawGet s.raw a).isSome = true

/-- What RD_ACC holds (R33, R99 a): at a byte of block `k`, the sum modulo 64 of the block's payload stored so far,
`RAW[64k .. WP-1]`; at a header byte or a terminator, 0. -/
def AccInv (s : State) : Prop :=
  s.status.ph = .active →
    match s.roleAt s.pos.toNat with
    | .pay k _ => ∃ bs, rawBytes s.raw (64 * k) (s.wp.toNat - 64 * k) = some bs ∧ s.rdAcc.toNat = byteSum bs % 64
    | .sum k => ∃ bs, rawBytes s.raw (64 * k) (s.wp.toNat - 64 * k) = some bs ∧ s.rdAcc.toNat = byteSum bs % 64
    | .hdr => s.rdAcc = 0
    | .term => s.rdAcc = 0

/-! ### The wait without end -/

/-- Nothing more comes from the transport, and no reset: in none of the coming cycles does it present a failure, or a
byte it has. -/
def TransportSilent (s : State) : Prop :=
  ∀ c ∈ s.cycles, c.rst = false ∧ c.rxFail = none ∧ (c.rxValid = false ∨ s.stream = [])

/-- THE PLACE WHERE A RUN DOES NOT END unless the transport is fair, the only one (R17 d, R98, R149, 93's U17): the
reader is ACTIVE and neither a byte nor a failure arrives. It has no step of its own and no time-out; host operations are
still answered. That a read ends may only be claimed with the transport's bytes or its failure as a premise. -/
def WaitsForTransport (s : State) : Prop := s.status.ph = .active ∧ TransportSilent s

/-! ### Kinds of operations -/

/-- The operations of the block reader (R58); the others neither read nor write reader state (R47). -/
def readerOperation : Instr → Bool
  | .enc _ _ => false
  | .dec _ _ => false
  | .csclr => false
  | .csadd _ => false
  | .csget => false
  | .csvfy _ => false
  | .classify _ _ => false
  | .rdstart _ _ _ _ => true
  | .rdreg _ => true
  | .rdsamp _ => true
  | .rdraw _ => true
  | .rdflt _ => true

/-- What a host operation leaves as it was, by its rule (R20): CSCLR and CSADD write CSACC alone, RDSTART the reader's
registers, every other operation nothing; the response output is always written. -/
def frameOf (i : Instr) (s t : State) : Prop :=
  match i with
  | .enc _ _ => t = s.withRsp t.rsp
  | .dec _ _ => t = s.withRsp t.rsp
  | .csclr => t = (s.withCsacc t.csacc).withRsp t.rsp
  | .csadd _ => t = (s.withCsacc t.csacc).withRsp t.rsp
  | .csget => t = s.withRsp t.rsp
  | .csvfy _ => t = s.withRsp t.rsp
  | .classify _ _ => t = s.withRsp t.rsp
  | .rdstart _ _ _ _ =>
    t.csacc = s.csacc ∧ t.raw = s.raw ∧ t.hdrLen = s.hdrLen ∧ t.rawDepth = s.rawDepth ∧ t.cmds = s.cmds ∧
      t.stream = s.stream ∧ t.cycles = s.cycles
  | .rdreg _ => t = s.withRsp t.rsp
  | .rdsamp _ => t = s.withRsp t.rsp
  | .rdraw _ => t = s.withRsp t.rsp
  | .rdflt _ => t = s.withRsp t.rsp

/-! ### Runs -/

/-- Host operations one after another, stopping where the machine stops. -/
def runOps : List Instr → State → StepResult
  | [], s => .next s
  | i :: is, s =>
    match exec i s with
    | .next t => runOps is t
    | .fault f => .fault f
    | .refused r => .refused r

/-- `n` steps of the machine, stopping where it stops. -/
def runSteps : Nat → State → StepResult
  | 0, s => .next s
  | n + 1, s =>
    match step s with
    | .next t => runSteps n t
    | .fault f => .fault f
    | .refused r => .refused r

/-- `rx(b)` steps one after another, stopping where the machine stops. -/
def runBytes : List Byte → State → StepResult
  | [], s => .next s
  | b :: bs, s =>
    match rxStep b s with
    | .next t => runBytes bs t
    | .fault f => .fault f
    | .refused r => .refused r

end Sys2Proof.Machine
end

