-- ==== Sys2Proof/Certificates/Slice0/Obligations.lean ====
section
/-! DEFINITION. The statements for the provers, each with the rule of spec/ it formalises. -/

open Sys2Proof Sys2Proof.Machine

/-! ## The command word -/

/-- R55, R56, R58, R59: for every operation with a legal width select, and every value of every operand, decoding the
encoder's word gives the operation back. -/
def Obligations.DecodeOfEncodeIsTheInstruction : Prop :=
  ∀ i : Instr, i.WellFormed → decode (encode i) = .ok i

/-- R61: two words that agree on the bits the selected operation uses select the same operation and do the same; two
words of which one is refused and that agree in operation code and width select are refused alike. -/
def Obligations.IgnoredBitsChangeNothing : Prop :=
  (∀ (w v : CmdWord) (i : Instr), decode w = .ok i → v &&& usedMask i = w &&& usedMask i →
    decode v = .ok i ∧ ∀ s : State, runCommand v s = runCommand w s) ∧
  (∀ (w v : CmdWord) (e : DecodeError), decode w = .error e → opField v = opField w → wselField v = wselField w →
    decode v = .error e ∧ ∀ s : State, runCommand v s = runCommand w s)

/-- R62: reserved operation codes and illegal width selects are refused with ERR_ILLOP and no state change; every
other word selects the operation its code names, with a legal width select. -/
def Obligations.EveryWordSelectsOrIsRefused : Prop :=
  ∀ w : CmdWord,
    if opField w = 0x0 ∨ opField w = 0xD ∨ opField w = 0xE ∨ opField w = 0xF ∨
        ((opField w = 0x1 ∨ opField w = 0x2) ∧ wselField w = 3) ∨ (opField w = 0x8 ∧ 2 ≤ (wselField w).toNat) then
      ∀ s : State, runCommand w s = .next (s.withRsp (some ⟨.errIllop, 0⟩))
    else ∃ i : Instr, decode w = .ok i ∧ i.WellFormed ∧ opField (encode i) = opField w

/-- Words written out in 95_test_vectors.md, one for each operation (R58). -/
def Obligations.SpecWordsDecode : Prop :=
  decode 0x14000000_00001538_00000000 = .ok (.enc 1 5432) ∧
  decode 0x24000000_00314468_00000000 = .ok (.dec 1 0x314468) ∧
  decode 0x30000000_00000000_00000000 = .ok .csclr ∧
  decode 0x40000000_00000030_00000000 = .ok (.csadd 0x30) ∧
  decode 0x50000000_00000000_00000000 = .ok .csget ∧
  decode 0x60000000_00000050_00000000 = .ok (.csvfy 0x50) ∧
  decode 0x70000000_00004D44_00000000 = .ok (.classify 0x4D 0x44) ∧
  decode 0x84000001_0000002C_000002D5 = .ok (.rdstart 1 1 44 725) ∧
  decode 0x9000000A_00000000_00000000 = .ok (.rdreg 10) ∧
  decode 0xA0000000_00000015_00000000 = .ok (.rdsamp 21) ∧
  decode 0xB0000000_0000006E_00000000 = .ok (.rdraw 110) ∧
  decode 0xC0000000_00000002_00000000 = .ok (.rdflt 2)

/-! ## The step -/

/-- R12, R34, R125 (b): a step in which the host's command is next runs the decoded operation, after the word has left
the command port; what a transport event of the same cycle leaves for the next step stands in the cycles. The ports as
lists are the model's choice (log 2, 8). -/
def Obligations.StepRunsThePresentedCommand : Prop :=
  ∀ (s : State) (c : Cycle) (cs : List Cycle) (w : CmdWord) (ws : List CmdWord) (i : Instr),
    s.cycles = c :: cs → c.rst = false → c.cmdValid = true → s.cmds = w :: ws → decode w = .ok i →
    (transportEvent c s = none → step s = exec i (s.withPorts ws s.stream cs)) ∧
    (transportEvent c s ≠ none → c.hostFirst = true →
      step s = exec i (s.withPorts ws s.stream (c.withoutCmd :: cs)))

/-- R34, R62: a command word presented alone is the next step: the operation it selects, or ERR_ILLOP, in the state
before it was presented (log 3). -/
def Obligations.PresentedWordRunsNext : Prop :=
  ∀ (w : CmdWord) (s : State), step (s.withFetchWord 96 w.toNat) =
    match decode w with
    | .ok i => exec i s
    | .error _ => .next (s.withRsp (some ⟨.errIllop, 0⟩))

/-- R35, R98, R125 (a), (b): with no command taken first, a failure at the port is taken and leaves the byte with the
transport; a byte is taken while PH = 1; in any other phase it stays with the transport. -/
def Obligations.StepTakesTheTransportEvent : Prop :=
  ∀ (s : State) (c : Cycle) (cs : List Cycle),
    s.cycles = c :: cs → c.rst = false → (c.cmdValid = false ∨ s.cmds = []) →
    (∀ k, c.rxFail = some k → step s = .next (rxFailStep k (s.withCycles cs))) ∧
    (∀ b bs, c.rxFail = none → c.rxValid = true → s.stream = b :: bs → s.status.ph = .active →
      step s = rxStep b (s.withPorts s.cmds bs cs)) ∧
    (c.rxFail = none → (c.rxValid = false ∨ s.stream = [] ∨ s.status.ph ≠ .active) →
      step s = .next ((s.withCycles cs).withRsp none))

/-- R132, R149: with nothing driven at the ports the machine waits and keeps everything; the response output is empty,
as after every step without a command (log 2, 4). -/
def Obligations.WaitingKeepsTheState : Prop :=
  ∀ s : State, s.cycles = [] → step s = .next (s.withRsp none)

/-- R125 (b): where a cycle holds both a command and a transport event and the transport's is chosen first, the command
is still presented after it. -/
def Obligations.TransportFirstLeavesTheCommand : Prop :=
  ∀ (s : State) (c : Cycle) (cs : List Cycle) (w : CmdWord) (ws : List CmdWord),
    s.cycles = c :: cs → c.rst = false → c.cmdValid = true → s.cmds = w :: ws → c.hostFirst = false →
    (∀ k, c.rxFail = some k → step s = .next (rxFailStep k (s.withCycles (c.withoutRx :: cs)))) ∧
    (∀ b bs, c.rxFail = none → c.rxValid = true → s.stream = b :: bs → s.status.ph = .active →
      step s = rxStep b (s.withPorts s.cmds bs (c.withoutRx :: cs)))

/-- R140, R141: a reset wins over every other event of its cycle and leaves R140's table, from any state. It does not
speak of RAW (log 6) or of the command port (log 7). -/
def Obligations.ResetLeavesTheResetTable : Prop :=
  ∀ (s : State) (c : Cycle) (cs : List Cycle), s.cycles = c :: cs → c.rst = true →
    ∃ t, step s = .next t ∧ t.csacc = 0 ∧ t.rdAcc = 0 ∧ statusWord t.status = 0 ∧ t.status.ph = .idle ∧
      t.startStep = 0 ∧ t.endStep = 0 ∧ t.cluster = 0 ∧ t.sampleCount = 0 ∧ t.byteCount = 0 ∧ t.fullBlocks = 0 ∧
      t.remainder = 0 ∧ t.pos = 0 ∧ t.wp = 0 ∧ t.faultCount = 0 ∧ t.hdrLen = s.hdrLen ∧ t.rawDepth = s.rawDepth ∧
      t.faults = [] ∧ rdPh t = 0 ∧ rxReady t = false ∧ cmdReady t = true ∧ rspValid t = false ∧
      t.stream = s.stream ∧ t.cycles = cs

/-- R39, R140: what `State.reset` holds; the parameters are free values that satisfy R6's constraint (log 1). -/
def Obligations.ResetStateHoldsTheResetValues : Prop :=
  State.reset.csacc = 0 ∧ State.reset.rdAcc = 0 ∧ statusWord State.reset.status = 0 ∧ State.reset.startStep = 0 ∧
    State.reset.endStep = 0 ∧ State.reset.cluster = 0 ∧ State.reset.sampleCount = 0 ∧ State.reset.byteCount = 0 ∧
    State.reset.fullBlocks = 0 ∧ State.reset.remainder = 0 ∧ State.reset.pos = 0 ∧ State.reset.wp = 0 ∧
    State.reset.faultCount = 0 ∧ State.reset.faults = [] ∧ State.reset.rsp = none ∧
    Params.Legal ⟨State.reset.hdrLen.toNat, State.reset.rawDepth.toNat⟩

/-! ## The value codec -/

/-- R73 (with R70, R59): ENC. Character `i` of the answered field is the byte `w - 1 - i` of the result. -/
def Obligations.EncAnswersByItsRule : Prop :=
  ∀ (wsel : BitVec 2) (v : Word) (s : State),
    if wsel = 3 then exec (.enc wsel v) s = .next (s.withRsp (some ⟨.errIllop, 0⟩))
    else if 64 ^ (wsel.toNat + 2) ≤ v.toNat then exec (.enc wsel v) s = .next (s.withRsp (some ⟨.errRange, 0⟩))
    else ∃ r : Word, exec (.enc wsel v) s = .next (s.withRsp (some ⟨.ok, r⟩)) ∧ r.toNat < 256 ^ (wsel.toNat + 2) ∧
      ∀ i < wsel.toNat + 2, r.toNat / 256 ^ (wsel.toNat + 1 - i) % 256 =
        v.toNat / 64 ^ (wsel.toNat + 1 - i) % 64 + 0x30

/-- R74 (with R71, R59): DEC. Every field of a legal width decodes, to the sum of its groups' values, outside the alphabet
too (R71's D18; log 12). -/
def Obligations.DecAnswersByItsRule : Prop :=
  ∀ (wsel : BitVec 2) (x : Word) (s : State),
    if wsel = 3 then exec (.dec wsel x) s = .next (s.withRsp (some ⟨.errIllop, 0⟩))
    else ∃ r : Word, exec (.dec wsel x) s = .next (s.withRsp (some ⟨.ok, r⟩)) ∧ r.toNat < 64 ^ (wsel.toNat + 2) ∧
      r.toNat = ((List.range (wsel.toNat + 2)).map fun j =>
        (x.toNat / 256 ^ j % 256 + 256 - 0x30) % 256 % 64 * 64 ^ j).sum

/-- R72 law 1, over the operations: DEC of the field ENC answers is the value. -/
def Obligations.DecAfterEncIsTheValue : Prop :=
  ∀ (wsel : BitVec 2) (v : Word) (s : State), wsel ≠ 3 → v.toNat < 64 ^ (wsel.toNat + 2) →
    ∃ r : Word, exec (.enc wsel v) s = .next (s.withRsp (some ⟨.ok, r⟩)) ∧
      ∀ t : State, exec (.dec wsel r) t = .next (t.withRsp (some ⟨.ok, v⟩))

/-- R72, its six laws. -/
def Obligations.CodecLaws : Prop :=
  (∀ w ∈ [2, 3, 4], ∀ v < 64 ^ w, dec (enc v w) = v) ∧
  (∀ cs : List Byte, cs.length ∈ [2, 3, 4] → inAlphabet cs = true → enc (dec cs) cs.length = cs) ∧
  (∀ w ∈ [2, 3, 4], ∀ v < 64 ^ w, inAlphabet (enc v w) = true) ∧
  (∀ (cs ds : List Byte) (x : Byte),
    dec (cs ++ [x] ++ ds) = dec (cs ++ [BitVec.ofNat 8 (0x30 + (x.toNat + 256 - 0x30) % 64)] ++ ds)) ∧
  (∀ (cs : List Byte) (c : Byte), dec (cs ++ [c]) = dec cs * 64 + (c.toNat + 256 - 0x30) % 256 % 64) ∧
  (∀ cs ds : List Byte, cs.length = ds.length → inAlphabet cs = true → inAlphabet ds = true →
    (dec cs < dec ds ↔ cs.map BitVec.toNat < ds.map BitVec.toNat))

/-! ## The checksum calculator -/

/-- R83, R84, R85, R86: the four operations complete in every state and write CSACC alone. -/
def Obligations.ChecksumOperationsAnswer : Prop :=
  ∀ s : State,
    exec .csclr s = .next ((s.withCsacc 0).withRsp (some ⟨.ok, 0⟩)) ∧
    (∀ b : Byte, ∃ v : Residue, v.toNat = (s.csacc.toNat + b.toNat) % 64 ∧
      exec (.csadd b) s = .next ((s.withCsacc v).withRsp (some ⟨.ok, 0⟩))) ∧
    (∃ r : Word, r.toNat = s.csacc.toNat + 0x30 ∧ exec .csget s = .next (s.withRsp (some ⟨.ok, r⟩))) ∧
    (∀ x : Byte, exec (.csvfy x) s =
      .next (s.withRsp (some ⟨.ok, if s.csacc.toNat + 0x30 = x.toNat then 1 else 0⟩)))

/-- R87 for a span with nothing between its operations: from CSACC = 0 the CSADDs of any list of bytes, then CSGET,
answer `checksum` of the list, and CSVFY answers `verify`. -/
def Obligations.SpanComputesTheChecksum : Prop :=
  ∀ (s : State) (bs : List Byte), s.csacc = 0 →
    ∃ t, runOps (bs.map Instr.csadd) s = .next t ∧
      exec .csget t = .next (t.withRsp (some ⟨.ok, (checksum bs).setWidth 32⟩)) ∧
      ∀ x : Byte, exec (.csvfy x) t = .next (t.withRsp (some ⟨.ok, if verify bs x = true then 1 else 0⟩))

/-- R80, R81: the value of the checksum byte, and the comparison on all 8 bits. -/
def Obligations.ChecksumAndVerifyByTheirRules : Prop :=
  ∀ bs : List Byte, (checksum bs).toNat = (bs.map BitVec.toNat).sum % 64 + 0x30 ∧
    ∀ x : Byte, verify bs x = true ↔ x.toNat = (bs.map BitVec.toNat).sum % 64 + 0x30

/-- R82 laws 1, 3, 4, 5, which the spec derives from R80: the running form, and which changes the byte shows. -/
def Obligations.ChecksumLaws : Prop :=
  (∀ (bs : List Byte) (b : Byte),
    (checksum (bs ++ [b])).toNat = ((checksum bs).toNat - 0x30 + b.toNat) % 64 + 0x30) ∧
  (∀ (xs ys : List Byte) (b c : Byte),
    checksum (xs ++ [b] ++ ys) = checksum (xs ++ [c] ++ ys) ↔ b.toNat % 64 = c.toNat % 64) ∧
  (∀ bs cs : List Byte, bs.Perm cs → checksum bs = checksum cs) ∧
  (∀ bs : List Byte, checksum (bs.map fun b => BitVec.ofNat 8 (b.toNat % 64)) = checksum bs)

/-! ## The command classifier -/

/-- R90, R91, R64: CLASS answers the place of the two bytes among the fifteen symbols MD, MS, GD, GS, BM, QT, RS, TM,
SS, CR, HS, DB, VV, PP, II, counted from 0, and 15 for any other two bytes. -/
def Obligations.ClassAnswersThePlaceInTheTable : Prop :=
  ∀ (s0 s1 : Byte) (s : State),
    exec (.classify s0 s1) s = .next (s.withRsp (some ⟨.ok, BitVec.ofNat 32
      (List.idxOf (s0.toNat * 256 + s1.toNat)
        [0x4D44, 0x4D53, 0x4744, 0x4753, 0x424D, 0x5154, 0x5253, 0x544D, 0x5353, 0x4352, 0x4853, 0x4442, 0x5656, 0x5050,
          0x4949])⟩))

/-- R92 (2): a kind other than Unknown comes from one symbol only. -/
def Obligations.KnownKindsHaveOneSymbol : Prop :=
  ∀ s0 s1 t0 t1 : Byte, classifySymbol s0 s1 ≠ .unknown → classifySymbol s0 s1 = classifySymbol t0 t1 →
    s0 = t0 ∧ s1 = t1

/-! ## The block reader: host operations -/

/-- R95, R122: RDSTART, its refusals in their order, then everything an accepted one writes and what it leaves. -/
def Obligations.RdstartFollowsItsRule : Prop :=
  ∀ (wsel : BitVec 2) (c : BitVec 12) (a b : Word) (s : State),
    if 2 ≤ wsel.toNat then exec (.rdstart wsel c a b) s = .next (s.withRsp (some ⟨.errIllop, 0⟩))
    else if s.status.ph = .active then exec (.rdstart wsel c a b) s = .next (s.withRsp (some ⟨.errBusy, 0⟩))
    else if c = 0 ∨ b.toNat ≤ a.toNat then
      exec (.rdstart wsel c a b) s = .next (s.withRsp (some ⟨.errParam, 0⟩))
    else if s.rawDepth.toNat < (b.toNat - a.toNat + 1) / c.toNat * (wsel.toNat + 2) then
      exec (.rdstart wsel c a b) s = .next (s.withRsp (some ⟨.errRange, 0⟩))
    else ∃ t, exec (.rdstart wsel c a b) s = .next t ∧ t.rsp = some ⟨.ok, 0⟩ ∧
      t.startStep = a ∧ t.endStep = b ∧ t.cluster.toNat = c.toNat ∧
      t.sampleCount.toNat = (b.toNat - a.toNat + 1) / c.toNat ∧
      t.byteCount.toNat = (b.toNat - a.toNat + 1) / c.toNat * (wsel.toNat + 2) ∧
      t.fullBlocks.toNat = t.byteCount.toNat / 64 ∧ t.remainder.toNat = t.byteCount.toNat % 64 ∧
      t.pos = 0 ∧ t.wp = 0 ∧ t.rdAcc = 0 ∧ t.faults = [] ∧ t.faultCount = 0 ∧
      t.status.ph = .active ∧ t.status.iok = .noError ∧ t.status.anyf = false ∧
      (t.status.cw = true ↔ wsel = 1) ∧
      t.csacc = s.csacc ∧ t.raw = s.raw ∧ t.hdrLen = s.hdrLen ∧ t.rawDepth = s.rawDepth ∧
      t.cmds = s.cmds ∧ t.stream = s.stream ∧ t.cycles = s.cycles

/-- R102: RDREG answers the CSR in every phase, and ERR_RANGE above 12. -/
def Obligations.RdregAnswersTheCsr : Prop :=
  ∀ (n : BitVec 12) (s : State),
    if 12 < n.toNat then exec (.rdreg n) s = .next (s.withRsp (some ⟨.errRange, 0⟩))
    else ∃ v : Word, exec (.rdreg n) s = .next (s.withRsp (some ⟨.ok, v⟩)) ∧
      [statusWord s.status, s.startStep, s.endStep, s.cluster, s.sampleCount, s.byteCount, s.fullBlocks, s.remainder,
        s.pos, s.wp, s.faultCount, s.hdrLen, s.rawDepth][n.toNat]? = some v

/-- R24, R25: STATUS as software reads it: PH in bits 1:0, IOK in bits 3:2, ANYF in bit 4, CW in bit 5, 0 above. -/
def Obligations.StatusWordCarriesItsFields : Prop :=
  ∀ r : StatusReg, (statusWord r).toNat =
    (match r.ph with | .idle => 0 | .active => 1 | .done => 2 | .ioerr => 3) +
    4 * (match r.iok with | .noError => 0 | .shortRead => 1 | .timeout => 2 | .closed => 3) +
    (if r.anyf then 16 else 0) + (if r.cw then 32 else 0)

/-- R57, R60: the response word holds the status code in bits 35:32 and the result in bits 31:0. -/
def Obligations.ResponseWordCarriesStatusAndResult : Prop :=
  ∀ r : Response, (Response.word r).toNat =
    (match r.status with
      | .ok => 0 | .errIllop => 1 | .errRange => 2 | .errParam => 3 | .errBusy => 4 | .errState => 5) * 2 ^ 32 +
      r.result.toNat

/-- R103: RDSAMP. `StateInv` rules out states no run reaches, in which the sample's bytes might not exist. -/
def Obligations.RdsampFollowsItsRule : Prop :=
  ∀ (n : Word) (s : State),
    if s.status.ph ≠ .done then exec (.rdsamp n) s = .next (s.withRsp (some ⟨.errState, 0⟩))
    else if s.sampleCount.toNat ≤ n.toNat then exec (.rdsamp n) s = .next (s.withRsp (some ⟨.errRange, 0⟩))
    else StateInv s → ∃ bs : List Byte, bs.length = sampleWidth s.status ∧
      (∀ j < sampleWidth s.status, rawGet s.raw (n.toNat * sampleWidth s.status + j) = bs[j]?) ∧
      dec bs < 64 ^ sampleWidth s.status ∧
      ∃ r : Word, r.toNat = dec bs ∧ exec (.rdsamp n) s = .next (s.withRsp (some ⟨.ok, r⟩))

/-- R104: RDRAW. -/
def Obligations.RdrawFollowsItsRule : Prop :=
  ∀ (a : Word) (s : State),
    if s.status.ph ≠ .done then exec (.rdraw a) s = .next (s.withRsp (some ⟨.errState, 0⟩))
    else if s.byteCount.toNat ≤ a.toNat then exec (.rdraw a) s = .next (s.withRsp (some ⟨.errRange, 0⟩))
    else StateInv s → ∃ b : Byte, rawGet s.raw a.toNat = some b ∧
      exec (.rdraw a) s = .next (s.withRsp (some ⟨.ok, b.setWidth 32⟩))

/-- R105: RDFLT. -/
def Obligations.RdfltFollowsItsRule : Prop :=
  ∀ (k : Word) (s : State),
    if s.status.ph ≠ .done then exec (.rdflt k) s = .next (s.withRsp (some ⟨.errState, 0⟩))
    else if s.fullBlocks.toNat < k.toNat then exec (.rdflt k) s = .next (s.withRsp (some ⟨.errRange, 0⟩))
    else StateInv s → exec (.rdflt k) s = .next (s.withRsp (some ⟨.ok, if k.toNat ∈ s.faults then 1 else 0⟩))

/-- R120: a refused command, whatever its word, answers result 0 and writes no state element. -/
def Obligations.RefusedCommandsChangeNothing : Prop :=
  ∀ (w : CmdWord) (s t : State) (r : Response), runCommand w s = .next t → t.rsp = some r → r.status ≠ .ok →
    r.result = 0 ∧ t = s.withRsp (some r)

/-- R11, R34: a command step gives exactly one response; every other step gives none. That the response stands on the
output until the next step is the model's choice (log 4). -/
def Obligations.OneResponsePerCommand : Prop :=
  ∀ s t : State, step s = .next t →
    match nextStep s with
    | (.cmd _, _) => t.rsp ≠ none
    | _ => t.rsp = none

/-- R20, R44, R52: what each host operation leaves unchanged when it answers, RAW among it for all of them. -/
def Obligations.HostOperationsKeepTheirFrame : Prop :=
  ∀ (i : Instr) (s t : State), exec i s = .next t → frameOf i s t ∧ ∀ a, rawGet t.raw a = rawGet s.raw a

/-! ## The block reader: the stream -/

/-- R96, R97: the role of every position of the layout, for every header length and shape. -/
def Obligations.RolesFollowTheLayout : Prop :=
  ∀ h fb rem : Nat, rem < 64 →
    (∀ i < h, role h fb rem i = .hdr) ∧
    (∀ k < fb, (∀ o < 64, role h fb rem (h + 66 * k + o) = .pay k o) ∧
      role h fb rem (h + 66 * k + 64) = .sum k ∧ role h fb rem (h + 66 * k + 65) = .term) ∧
    (∀ o < rem, role h fb rem (h + 66 * fb + o) = .pay fb o) ∧
    role h fb rem (h + 66 * fb + rem) = .sum fb ∧
    role h fb rem (h + 66 * fb + rem + 1) = .term ∧ role h fb rem (h + 66 * fb + rem + 2) = .term ∧
    streamLength h fb rem = h + 66 * fb + rem + 3

/-- R99 (d), R101: a header byte or a terminator is consumed whatever it is: POS moves, the last one makes the phase
DONE, nothing else changes. -/
def Obligations.RxDiscardsHeaderAndTerminators : Prop :=
  ∀ (b : Byte) (s : State), StateInv s → s.status.ph = .active →
    (s.roleAt s.pos.toNat = .hdr ∨ s.roleAt s.pos.toNat = .term) →
    rxStep b s = .next (((s.withPos (s.pos + 1)).withStatus
      (if s.pos.toNat + 1 = s.streamLen then doneStatus s.status else s.status)).withRsp none)

/-- R97, R99: a byte at `PAY(k, o)` is stored at RAW address `64k + o`, which is WP, and added to RD_ACC; every other
byte of RAW and every other element keeps its value, and the read goes on. -/
def Obligations.RxStoresPayload : Prop :=
  ∀ (b : Byte) (s : State) (k o : Nat), StateInv s → s.status.ph = .active → s.roleAt s.pos.toNat = .pay k o →
    s.wp.toNat = 64 * k + o ∧
    ∃ t, rxStep b s = .next t ∧ rawGet t.raw (64 * k + o) = some b ∧
      (∀ a, a ≠ 64 * k + o → rawGet t.raw a = rawGet s.raw a) ∧
      t.rdAcc.toNat = (s.rdAcc.toNat + b.toNat) % 64 ∧
      t = { s with raw := t.raw, rdAcc := t.rdAcc, wp := s.wp + 1, pos := s.pos + 1, rsp := none }

/-- R99 (b), (c), (e), R123: a byte at `SUM(k)` is compared with `RD_ACC + 0x30` on all 8 bits; a match records
nothing, a mismatch sets FAULT[k], which was clear, counts it and sets ANYF; RD_ACC becomes 0 and the read goes on. -/
def Obligations.RxChecksTheSumByte : Prop :=
  ∀ (b : Byte) (s : State) (k : Nat), StateInv s → s.status.ph = .active → s.roleAt s.pos.toNat = .sum k →
    k ∉ s.faults ∧
    if b.toNat = s.rdAcc.toNat + 0x30 then
      rxStep b s = .next { s with rdAcc := 0, pos := s.pos + 1, rsp := none }
    else ∃ ks, (∀ j, j ∈ ks ↔ j = k ∨ j ∈ s.faults) ∧
      rxStep b s = .next { s with
        rdAcc := 0, pos := s.pos + 1, rsp := none, faults := ks, faultCount := s.faultCount + 1,
        status := { s.status with anyf := true } }

/-- R100, R35, R66: a failure while ACTIVE sets PH = 3 and IOK to its kind, 0 counting as ShortRead, and changes nothing
else of the CORE; in any other phase it changes nothing. -/
def Obligations.RxFailEndsTheRead : Prop :=
  ∀ (k : BitVec 2) (s : State),
    if s.status.ph = .active then
      rxFailStep k s = { s with
        rsp := none
        status := { s.status with
          ph := .ioerr
          iok := if k.toNat ≤ 1 then .shortRead else if k.toNat = 2 then .timeout else .closed } }
    else rxFailStep k s = { s with rsp := none }

/-- R108: the phase transitions, all of them. -/
def Obligations.PhaseTransitionsAreTheTable : Prop :=
  ∀ s t : State, step s = .next t →
    match nextStep s with
    | (.reset, _) => t.status.ph = .idle
    | (.rx _, _) =>
      s.status.ph = .active ∧ t.status.ph = if s.pos.toNat + 1 = s.streamLen then .done else .active
    | (.rxFail _, _) => t.status.ph = if s.status.ph = .active then .ioerr else s.status.ph
    | (.cmd w, _) =>
      if opField w = 0x8 ∧ t.rsp = some ⟨.ok, 0⟩ then s.status.ph ≠ .active ∧ t.status.ph = .active
      else t.status.ph = s.status.ph
    | (.idle, _) => t.status.ph = s.status.ph

/-- R22: POS is written by an `rx` step, which adds 1, without wrap where the invariants hold, and by a reset and an
accepted RDSTART, which make it 0; by no other step. -/
def Obligations.PosMovesOnlyByRxRdstartReset : Prop :=
  ∀ s t : State, step s = .next t →
    match nextStep s with
    | (.reset, _) => t.pos = 0
    | (.rx _, _) => t.pos = s.pos + 1 ∧ (StateInv s → t.pos.toNat = s.pos.toNat + 1 ∧ t.pos.toNat ≤ s.streamLen)
    | (.rxFail _, _) => t.pos = s.pos
    | (.cmd w, _) => t.pos = if opField w = 0x8 ∧ t.rsp = some ⟨.ok, 0⟩ then 0 else s.pos
    | (.idle, _) => t.pos = s.pos

/-- R20, R87: CSACC is written by CSCLR, CSADD and reset and by no other step. -/
def Obligations.OnlyChecksumOperationsWriteCsacc : Prop :=
  ∀ s t : State, step s = .next t → t.csacc ≠ s.csacc →
    match nextStep s with
    | (.cmd w, _) => opField w = 0x3 ∨ opField w = 0x4
    | (.reset, _) => t.csacc = 0
    | _ => False

/-- R30: RDREG 11 and RDREG 12 answer the parameters, and no step writes them, reset included. -/
def Obligations.ParametersAreConstant : Prop :=
  ∀ s : State,
    exec (.rdreg 11) s = .next (s.withRsp (some ⟨.ok, s.hdrLen⟩)) ∧
    exec (.rdreg 12) s = .next (s.withRsp (some ⟨.ok, s.rawDepth⟩)) ∧
    ∀ t : State, step s = .next t → t.hdrLen = s.hdrLen ∧ t.rawDepth = s.rawDepth

/-- R44: apart from reset, only an `rx` step changes RAW, and at the address WP alone. -/
def Obligations.OnlyRxWritesRaw : Prop :=
  ∀ s t : State, step s = .next t → ∀ a, rawGet t.raw a ≠ rawGet s.raw a →
    match nextStep s with
    | (.rx b, _) => a = s.wp.toNat ∧ rawGet t.raw a = some b
    | (.reset, _) => True
    | _ => False

/-- R31, R123: a set fault bit stays set until an accepted RDSTART or reset. -/
def Obligations.FaultBitsStayUntilRdstartOrReset : Prop :=
  ∀ (s t : State) (k : Nat), step s = .next t → k ∈ s.faults → k ∉ t.faults →
    match nextStep s with
    | (.cmd w, _) => opField w = 0x8 ∧ t.rsp = some ⟨.ok, 0⟩
    | (.reset, _) => True
    | _ => False

/-- R47: the operations of the encoder, decoder, checksum calculator and classifier commute with the transport's
steps: both orders complete, with the same response and the same state but for the response output. -/
def Obligations.PureOperationsCommuteWithTheStream : Prop :=
  ∀ (i : Instr) (s t : State), readerOperation i = false → exec i s = .next t →
    (∀ (b : Byte) (u : State), rxStep b s = .next u →
      ∃ t' u', rxStep b t = .next t' ∧ exec i u = .next u' ∧ u'.rsp = t.rsp ∧ t'.withRsp none = u'.withRsp none) ∧
    (∀ k : BitVec 2, ∃ u', exec i (rxFailStep k s) = .next u' ∧ u'.rsp = t.rsp ∧
      (rxFailStep k t).withRsp none = u'.withRsp none)

/-! ## Invariants -/

/-- R38: the invariants hold after reset, whatever the parameters. -/
def Obligations.InvHoldsAfterReset : Prop := StateInv State.reset

/-- R38: every step keeps the invariants. -/
def Obligations.StepKeepsInv : Prop :=
  ∀ s t : State, StateInv s → step s = .next t → StateInv t

/-- R17: in a state that satisfies the invariants no step stops: the model's own faults (log 6, 9) are not reached and
nothing is left without a meaning. -/
def Obligations.StepNeverStopsUnderInv : Prop :=
  ∀ s : State, StateInv s → ∃ t, step s = .next t

/-- R33, R99 (a): every step keeps RD_ACC equal to the residue of the current block's stored payload. -/
def Obligations.StepKeepsAccInv : Prop :=
  ∀ s t : State, StateInv s → AccInv s → step s = .next t → AccInv t

/-- R99 (a): where RD_ACC is what R33 says, a SUM byte is faulted exactly when it differs from `checksum` of the
payload stored for its block. -/
def Obligations.SumByteIsComparedWithTheBlockChecksum : Prop :=
  ∀ (b : Byte) (s : State) (k : Nat), StateInv s → AccInv s → s.status.ph = .active → s.roleAt s.pos.toNat = .sum k →
    ∃ bs t, rawBytes s.raw (64 * k) (s.wp.toNat - 64 * k) = some bs ∧ rxStep b s = .next t ∧
      (k ∈ t.faults ↔ b ≠ checksum bs)

/-- Log 6: every step keeps RAW in its canonical form, from any state. -/
def Obligations.StepKeepsRawCanonical : Prop :=
  ∀ s t : State, Memory.wf s.raw = true → step s = .next t → Memory.wf t.raw = true

/-- R27, R28, R29, R101: what the invariants give of a read: the partition of the byte count, the bounds, and in phase
DONE a whole reply. -/
def Obligations.ReadQuantitiesUnderInv : Prop :=
  ∀ s : State, StateInv s →
    s.byteCount.toNat = 64 * s.fullBlocks.toNat + s.remainder.toNat ∧ s.remainder.toNat < 64 ∧
    s.byteCount.toNat ≤ s.rawDepth.toNat ∧ s.faultCount.toNat ≤ s.fullBlocks.toNat + 1 ∧
    s.pos.toNat ≤ s.streamLen ∧
    (s.status.ph = .done → s.pos.toNat = s.streamLen ∧ s.wp = s.byteCount ∧
      ∀ a < s.byteCount.toNat, (rawGet s.raw a).isSome = true)

/-! ## A whole read -/

/-- R106 items 1 to 3, with nothing between the stream's bytes: after an accepted RDSTART, the L bytes of the stream
end in DONE with RAW holding the payload of all blocks in order, FAULT set exactly for the blocks whose checksum byte is
not `checksum` of their payload, and RDSAMP answering the decoded groups. -/
def Obligations.CompletedReadHoldsThePayload : Prop :=
  ∀ (wsel : BitVec 2) (c : BitVec 12) (a b : Word) (s0 s : State) (bs : List Byte), StateInv s0 →
    exec (.rdstart wsel c a b) s0 = .next s → s.rsp = some ⟨.ok, 0⟩ → bs.length = s.streamLen →
    ∃ t, runBytes bs s = .next t ∧ t.status.ph = .done ∧
      (streamPayload s bs).length = s.byteCount.toNat ∧
      (∀ j < s.byteCount.toNat, rawGet t.raw j = (streamPayload s bs)[j]?) ∧
      (∀ k ≤ s.fullBlocks.toNat,
        (k ∈ t.faults ↔ bs[sumPosition s k]? ≠ some (checksum (blockPayload s bs k)))) ∧
      ∀ n : Word, n.toNat < s.sampleCount.toNat → exec (.rdsamp n) t = .next (t.withRsp (some ⟨.ok, BitVec.ofNat 32
        (dec (((streamPayload s bs).drop (n.toNat * sampleWidth s.status)).take (sampleWidth s.status)))⟩))

/-- R17 (d), R98, R149: the reader has no time-out. While it is ACTIVE and the transport presents nothing, any number of
steps, whatever the host does in them, completes and leaves it ACTIVE and waiting, with nothing changed but CSACC and the
host's side of the ports. This is the place where a run does not end. The environment as lists is the model's choice
(log 2). -/
def Obligations.ReaderWaitsWithoutEnd : Prop :=
  ∀ (n : Nat) (s : State), WaitsForTransport s →
    ∃ t, runSteps n s = .next t ∧ WaitsForTransport t ∧
      t = { s with csacc := t.csacc, rsp := t.rsp, cmds := t.cmds, cycles := t.cycles }

/-- R149, R18: the read ends where the transport delivers. From any position of an ACTIVE read, the bytes that are left of
it end it in DONE, whatever they are, and no fewer do; a failure instead of any of them ends it in IOERR. -/
def Obligations.ReadEndsWhereTheTransportDelivers : Prop :=
  ∀ (s : State) (bs : List Byte), StateInv s → s.status.ph = .active → bs.length ≤ s.streamLen - s.pos.toNat →
    ∃ t, runBytes bs s = .next t ∧
      (t.status.ph = if bs.length = s.streamLen - s.pos.toNat then .done else .active) ∧
      ∀ k : BitVec 2, t.status.ph = .active → (rxFailStep k t).status.ph = .ioerr

/-- R106 item 4: the bytes of the header line and the terminators have no influence on the state. -/
def Obligations.DiscardedBytesHaveNoInfluence : Prop :=
  ∀ (s : State) (xs ys : List Byte), StateInv s → s.status.ph = .active → s.pos = 0 → xs.length = s.streamLen →
    ys.length = s.streamLen →
    (∀ i < s.streamLen, s.roleAt i ≠ .hdr → s.roleAt i ≠ .term → xs[i]? = ys[i]?) →
    runBytes xs s = runBytes ys s
end

