-- ==== Sys2Proof/Laws/Encoding.lean ====
section
/-! SUPPORT. The fields of a command word put together by `commandWord` (30_encoding.md R55). -/

namespace Sys2Proof

/-- Bits 95:92. -/
@[simp] theorem opField_commandWord (op : BitVec 4) (wsel : BitVec 2) (c : BitVec 12) (a b : Word) :
    opField (commandWord op wsel c a b) = op := by
  unfold opField commandWord
  ext i hi
  simp only [BitVec.getElem_extractLsb', BitVec.getLsbD_append]
  grind

/-- Bits 91:90. -/
@[simp] theorem wselField_commandWord (op : BitVec 4) (wsel : BitVec 2) (c : BitVec 12) (a b : Word) :
    wselField (commandWord op wsel c a b) = wsel := by
  unfold wselField commandWord
  ext i hi
  simp only [BitVec.getElem_extractLsb', BitVec.getLsbD_append]
  grind

/-- Bits 75:64. -/
@[simp] theorem cField_commandWord (op : BitVec 4) (wsel : BitVec 2) (c : BitVec 12) (a b : Word) :
    cField (commandWord op wsel c a b) = c := by
  unfold cField commandWord
  ext i hi
  simp only [BitVec.getElem_extractLsb', BitVec.getLsbD_append]
  grind

/-- Bits 63:32. -/
@[simp] theorem aField_commandWord (op : BitVec 4) (wsel : BitVec 2) (c : BitVec 12) (a b : Word) :
    aField (commandWord op wsel c a b) = a := by
  unfold aField commandWord
  ext i hi
  simp only [BitVec.getElem_extractLsb', BitVec.getLsbD_append]
  grind

/-- Bits 31:0. -/
@[simp] theorem bField_commandWord (op : BitVec 4) (wsel : BitVec 2) (c : BitVec 12) (a b : Word) :
    bField (commandWord op wsel c a b) = b := by
  unfold bField commandWord
  ext i hi
  simp only [BitVec.getElem_extractLsb', BitVec.getLsbD_append]
  grind

/-- A byte carried in `a[7:0]` (R56). -/
@[simp] theorem lowByte_setWidth (x : Byte) : lowByte (x.setWidth 32) = x := by
  unfold lowByte
  ext i hi
  simp only [BitVec.getElem_extractLsb', BitVec.getLsbD_setWidth]
  grind

/-- The second symbol byte, in `a[7:0]` (R56). -/
@[simp] theorem lowByte_symbol (s0 s1 : Byte) : lowByte ((s0 ++ s1).setWidth 32) = s1 := by
  unfold lowByte
  ext i hi
  simp only [BitVec.getElem_extractLsb', BitVec.getLsbD_setWidth, BitVec.getLsbD_append]
  grind

/-- The first symbol byte, in `a[15:8]` (R56). -/
@[simp] theorem secondByte_symbol (s0 s1 : Byte) : secondByte ((s0 ++ s1).setWidth 32) = s0 := by
  unfold secondByte
  ext i hi
  simp only [BitVec.getElem_extractLsb', BitVec.getLsbD_setWidth, BitVec.getLsbD_append]
  grind

/-- A width check that passes gives the operation, with a legal width select (R59). -/
theorem checkedWidth_eq_ok {wsel : BitVec 2} {i j : Instr} (h : checkedWidth wsel i = .ok j) :
    i.WellFormed ∧ j = i := by
  unfold checkedWidth at h
  split at h
  · next hw => exact ⟨hw, (Except.ok.inj h).symm⟩
  · exact absurd h (by simp)

/-- What the decoder reads from a word it accepts, by its operation code (R56, R58). -/
theorem decode_eq_ok {w : CmdWord} {i : Instr} (h : decode w = .ok i) : i.WellFormed ∧
    ((opField w = 0x1 ∧ i = .enc (wselField w) (aField w)) ∨
      (opField w = 0x2 ∧ i = .dec (wselField w) (aField w)) ∨
      (opField w = 0x3 ∧ i = .csclr) ∨
      (opField w = 0x4 ∧ i = .csadd (lowByte (aField w))) ∨
      (opField w = 0x5 ∧ i = .csget) ∨
      (opField w = 0x6 ∧ i = .csvfy (lowByte (aField w))) ∨
      (opField w = 0x7 ∧ i = .classify (secondByte (aField w)) (lowByte (aField w))) ∨
      (opField w = 0x8 ∧ i = .rdstart (wselField w) (cField w) (aField w) (bField w)) ∨
      (opField w = 0x9 ∧ i = .rdreg (cField w)) ∨
      (opField w = 0xA ∧ i = .rdsamp (aField w)) ∨
      (opField w = 0xB ∧ i = .rdraw (aField w)) ∨
      (opField w = 0xC ∧ i = .rdflt (aField w))) := by
  unfold decode at h
  split at h
  · next ho => obtain ⟨hw, rfl⟩ := checkedWidth_eq_ok h; exact ⟨hw, by simp [ho]⟩
  · next ho => obtain ⟨hw, rfl⟩ := checkedWidth_eq_ok h; exact ⟨hw, by simp [ho]⟩
  · next ho => obtain rfl := Except.ok.inj h; exact ⟨rfl, by simp [ho]⟩
  · next ho => obtain rfl := Except.ok.inj h; exact ⟨rfl, by simp [ho]⟩
  · next ho => obtain rfl := Except.ok.inj h; exact ⟨rfl, by simp [ho]⟩
  · next ho => obtain rfl := Except.ok.inj h; exact ⟨rfl, by simp [ho]⟩
  · next ho => obtain rfl := Except.ok.inj h; exact ⟨rfl, by simp [ho]⟩
  · next ho => obtain ⟨hw, rfl⟩ := checkedWidth_eq_ok h; exact ⟨hw, by simp [ho]⟩
  · next ho => obtain rfl := Except.ok.inj h; exact ⟨rfl, by simp [ho]⟩
  · next ho => obtain rfl := Except.ok.inj h; exact ⟨rfl, by simp [ho]⟩
  · next ho => obtain rfl := Except.ok.inj h; exact ⟨rfl, by simp [ho]⟩
  · next ho => obtain rfl := Except.ok.inj h; exact ⟨rfl, by simp [ho]⟩
  · exact absurd h (by simp)

end Sys2Proof
end

