-- ==== Sys2Proof/Laws/State.lean ====
section
/-! SUPPORT. One lemma for each field of State under each named update, true by rfl, so that no proof unfolds a record
update (10_state.md R20 lists the fields). -/

namespace Sys2Proof.Machine

/-! ### `State.withRsp` -/

@[simp] theorem State.withRsp_csacc (s : State) (r : Option Response) :
    (s.withRsp r).csacc = s.csacc := rfl
@[simp] theorem State.withRsp_status (s : State) (r : Option Response) :
    (s.withRsp r).status = s.status := rfl
@[simp] theorem State.withRsp_startStep (s : State) (r : Option Response) :
    (s.withRsp r).startStep = s.startStep := rfl
@[simp] theorem State.withRsp_endStep (s : State) (r : Option Response) :
    (s.withRsp r).endStep = s.endStep := rfl
@[simp] theorem State.withRsp_cluster (s : State) (r : Option Response) :
    (s.withRsp r).cluster = s.cluster := rfl
@[simp] theorem State.withRsp_sampleCount (s : State) (r : Option Response) :
    (s.withRsp r).sampleCount = s.sampleCount := rfl
@[simp] theorem State.withRsp_byteCount (s : State) (r : Option Response) :
    (s.withRsp r).byteCount = s.byteCount := rfl
@[simp] theorem State.withRsp_fullBlocks (s : State) (r : Option Response) :
    (s.withRsp r).fullBlocks = s.fullBlocks := rfl
@[simp] theorem State.withRsp_remainder (s : State) (r : Option Response) :
    (s.withRsp r).remainder = s.remainder := rfl
@[simp] theorem State.withRsp_pos (s : State) (r : Option Response) :
    (s.withRsp r).pos = s.pos := rfl
@[simp] theorem State.withRsp_wp (s : State) (r : Option Response) :
    (s.withRsp r).wp = s.wp := rfl
@[simp] theorem State.withRsp_faultCount (s : State) (r : Option Response) :
    (s.withRsp r).faultCount = s.faultCount := rfl
@[simp] theorem State.withRsp_hdrLen (s : State) (r : Option Response) :
    (s.withRsp r).hdrLen = s.hdrLen := rfl
@[simp] theorem State.withRsp_rawDepth (s : State) (r : Option Response) :
    (s.withRsp r).rawDepth = s.rawDepth := rfl
@[simp] theorem State.withRsp_rdAcc (s : State) (r : Option Response) :
    (s.withRsp r).rdAcc = s.rdAcc := rfl
@[simp] theorem State.withRsp_faults (s : State) (r : Option Response) :
    (s.withRsp r).faults = s.faults := rfl
@[simp] theorem State.withRsp_raw (s : State) (r : Option Response) :
    (s.withRsp r).raw = s.raw := rfl
@[simp] theorem State.withRsp_rsp (s : State) (r : Option Response) :
    (s.withRsp r).rsp = r := rfl
@[simp] theorem State.withRsp_cmds (s : State) (r : Option Response) :
    (s.withRsp r).cmds = s.cmds := rfl
@[simp] theorem State.withRsp_stream (s : State) (r : Option Response) :
    (s.withRsp r).stream = s.stream := rfl
@[simp] theorem State.withRsp_cycles (s : State) (r : Option Response) :
    (s.withRsp r).cycles = s.cycles := rfl

/-! ### `State.withCsacc` -/

@[simp] theorem State.withCsacc_csacc (s : State) (v : Residue) :
    (s.withCsacc v).csacc = v := rfl
@[simp] theorem State.withCsacc_status (s : State) (v : Residue) :
    (s.withCsacc v).status = s.status := rfl
@[simp] theorem State.withCsacc_startStep (s : State) (v : Residue) :
    (s.withCsacc v).startStep = s.startStep := rfl
@[simp] theorem State.withCsacc_endStep (s : State) (v : Residue) :
    (s.withCsacc v).endStep = s.endStep := rfl
@[simp] theorem State.withCsacc_cluster (s : State) (v : Residue) :
    (s.withCsacc v).cluster = s.cluster := rfl
@[simp] theorem State.withCsacc_sampleCount (s : State) (v : Residue) :
    (s.withCsacc v).sampleCount = s.sampleCount := rfl
@[simp] theorem State.withCsacc_byteCount (s : State) (v : Residue) :
    (s.withCsacc v).byteCount = s.byteCount := rfl
@[simp] theorem State.withCsacc_fullBlocks (s : State) (v : Residue) :
    (s.withCsacc v).fullBlocks = s.fullBlocks := rfl
@[simp] theorem State.withCsacc_remainder (s : State) (v : Residue) :
    (s.withCsacc v).remainder = s.remainder := rfl
@[simp] theorem State.withCsacc_pos (s : State) (v : Residue) :
    (s.withCsacc v).pos = s.pos := rfl
@[simp] theorem State.withCsacc_wp (s : State) (v : Residue) :
    (s.withCsacc v).wp = s.wp := rfl
@[simp] theorem State.withCsacc_faultCount (s : State) (v : Residue) :
    (s.withCsacc v).faultCount = s.faultCount := rfl
@[simp] theorem State.withCsacc_hdrLen (s : State) (v : Residue) :
    (s.withCsacc v).hdrLen = s.hdrLen := rfl
@[simp] theorem State.withCsacc_rawDepth (s : State) (v : Residue) :
    (s.withCsacc v).rawDepth = s.rawDepth := rfl
@[simp] theorem State.withCsacc_rdAcc (s : State) (v : Residue) :
    (s.withCsacc v).rdAcc = s.rdAcc := rfl
@[simp] theorem State.withCsacc_faults (s : State) (v : Residue) :
    (s.withCsacc v).faults = s.faults := rfl
@[simp] theorem State.withCsacc_raw (s : State) (v : Residue) :
    (s.withCsacc v).raw = s.raw := rfl
@[simp] theorem State.withCsacc_rsp (s : State) (v : Residue) :
    (s.withCsacc v).rsp = s.rsp := rfl
@[simp] theorem State.withCsacc_cmds (s : State) (v : Residue) :
    (s.withCsacc v).cmds = s.cmds := rfl
@[simp] theorem State.withCsacc_stream (s : State) (v : Residue) :
    (s.withCsacc v).stream = s.stream := rfl
@[simp] theorem State.withCsacc_cycles (s : State) (v : Residue) :
    (s.withCsacc v).cycles = s.cycles := rfl

/-! ### `State.withRdAcc` -/

@[simp] theorem State.withRdAcc_csacc (s : State) (v : Residue) :
    (s.withRdAcc v).csacc = s.csacc := rfl
@[simp] theorem State.withRdAcc_status (s : State) (v : Residue) :
    (s.withRdAcc v).status = s.status := rfl
@[simp] theorem State.withRdAcc_startStep (s : State) (v : Residue) :
    (s.withRdAcc v).startStep = s.startStep := rfl
@[simp] theorem State.withRdAcc_endStep (s : State) (v : Residue) :
    (s.withRdAcc v).endStep = s.endStep := rfl
@[simp] theorem State.withRdAcc_cluster (s : State) (v : Residue) :
    (s.withRdAcc v).cluster = s.cluster := rfl
@[simp] theorem State.withRdAcc_sampleCount (s : State) (v : Residue) :
    (s.withRdAcc v).sampleCount = s.sampleCount := rfl
@[simp] theorem State.withRdAcc_byteCount (s : State) (v : Residue) :
    (s.withRdAcc v).byteCount = s.byteCount := rfl
@[simp] theorem State.withRdAcc_fullBlocks (s : State) (v : Residue) :
    (s.withRdAcc v).fullBlocks = s.fullBlocks := rfl
@[simp] theorem State.withRdAcc_remainder (s : State) (v : Residue) :
    (s.withRdAcc v).remainder = s.remainder := rfl
@[simp] theorem State.withRdAcc_pos (s : State) (v : Residue) :
    (s.withRdAcc v).pos = s.pos := rfl
@[simp] theorem State.withRdAcc_wp (s : State) (v : Residue) :
    (s.withRdAcc v).wp = s.wp := rfl
@[simp] theorem State.withRdAcc_faultCount (s : State) (v : Residue) :
    (s.withRdAcc v).faultCount = s.faultCount := rfl
@[simp] theorem State.withRdAcc_hdrLen (s : State) (v : Residue) :
    (s.withRdAcc v).hdrLen = s.hdrLen := rfl
@[simp] theorem State.withRdAcc_rawDepth (s : State) (v : Residue) :
    (s.withRdAcc v).rawDepth = s.rawDepth := rfl
@[simp] theorem State.withRdAcc_rdAcc (s : State) (v : Residue) :
    (s.withRdAcc v).rdAcc = v := rfl
@[simp] theorem State.withRdAcc_faults (s : State) (v : Residue) :
    (s.withRdAcc v).faults = s.faults := rfl
@[simp] theorem State.withRdAcc_raw (s : State) (v : Residue) :
    (s.withRdAcc v).raw = s.raw := rfl
@[simp] theorem State.withRdAcc_rsp (s : State) (v : Residue) :
    (s.withRdAcc v).rsp = s.rsp := rfl
@[simp] theorem State.withRdAcc_cmds (s : State) (v : Residue) :
    (s.withRdAcc v).cmds = s.cmds := rfl
@[simp] theorem State.withRdAcc_stream (s : State) (v : Residue) :
    (s.withRdAcc v).stream = s.stream := rfl
@[simp] theorem State.withRdAcc_cycles (s : State) (v : Residue) :
    (s.withRdAcc v).cycles = s.cycles := rfl

/-! ### `State.withStatus` -/

@[simp] theorem State.withStatus_csacc (s : State) (r : StatusReg) :
    (s.withStatus r).csacc = s.csacc := rfl
@[simp] theorem State.withStatus_status (s : State) (r : StatusReg) :
    (s.withStatus r).status = r := rfl
@[simp] theorem State.withStatus_startStep (s : State) (r : StatusReg) :
    (s.withStatus r).startStep = s.startStep := rfl
@[simp] theorem State.withStatus_endStep (s : State) (r : StatusReg) :
    (s.withStatus r).endStep = s.endStep := rfl
@[simp] theorem State.withStatus_cluster (s : State) (r : StatusReg) :
    (s.withStatus r).cluster = s.cluster := rfl
@[simp] theorem State.withStatus_sampleCount (s : State) (r : StatusReg) :
    (s.withStatus r).sampleCount = s.sampleCount := rfl
@[simp] theorem State.withStatus_byteCount (s : State) (r : StatusReg) :
    (s.withStatus r).byteCount = s.byteCount := rfl
@[simp] theorem State.withStatus_fullBlocks (s : State) (r : StatusReg) :
    (s.withStatus r).fullBlocks = s.fullBlocks := rfl
@[simp] theorem State.withStatus_remainder (s : State) (r : StatusReg) :
    (s.withStatus r).remainder = s.remainder := rfl
@[simp] theorem State.withStatus_pos (s : State) (r : StatusReg) :
    (s.withStatus r).pos = s.pos := rfl
@[simp] theorem State.withStatus_wp (s : State) (r : StatusReg) :
    (s.withStatus r).wp = s.wp := rfl
@[simp] theorem State.withStatus_faultCount (s : State) (r : StatusReg) :
    (s.withStatus r).faultCount = s.faultCount := rfl
@[simp] theorem State.withStatus_hdrLen (s : State) (r : StatusReg) :
    (s.withStatus r).hdrLen = s.hdrLen := rfl
@[simp] theorem State.withStatus_rawDepth (s : State) (r : StatusReg) :
    (s.withStatus r).rawDepth = s.rawDepth := rfl
@[simp] theorem State.withStatus_rdAcc (s : State) (r : StatusReg) :
    (s.withStatus r).rdAcc = s.rdAcc := rfl
@[simp] theorem State.withStatus_faults (s : State) (r : StatusReg) :
    (s.withStatus r).faults = s.faults := rfl
@[simp] theorem State.withStatus_raw (s : State) (r : StatusReg) :
    (s.withStatus r).raw = s.raw := rfl
@[simp] theorem State.withStatus_rsp (s : State) (r : StatusReg) :
    (s.withStatus r).rsp = s.rsp := rfl
@[simp] theorem State.withStatus_cmds (s : State) (r : StatusReg) :
    (s.withStatus r).cmds = s.cmds := rfl
@[simp] theorem State.withStatus_stream (s : State) (r : StatusReg) :
    (s.withStatus r).stream = s.stream := rfl
@[simp] theorem State.withStatus_cycles (s : State) (r : StatusReg) :
    (s.withStatus r).cycles = s.cycles := rfl

/-! ### `State.withPos` -/

@[simp] theorem State.withPos_csacc (s : State) (p : Word) :
    (s.withPos p).csacc = s.csacc := rfl
@[simp] theorem State.withPos_status (s : State) (p : Word) :
    (s.withPos p).status = s.status := rfl
@[simp] theorem State.withPos_startStep (s : State) (p : Word) :
    (s.withPos p).startStep = s.startStep := rfl
@[simp] theorem State.withPos_endStep (s : State) (p : Word) :
    (s.withPos p).endStep = s.endStep := rfl
@[simp] theorem State.withPos_cluster (s : State) (p : Word) :
    (s.withPos p).cluster = s.cluster := rfl
@[simp] theorem State.withPos_sampleCount (s : State) (p : Word) :
    (s.withPos p).sampleCount = s.sampleCount := rfl
@[simp] theorem State.withPos_byteCount (s : State) (p : Word) :
    (s.withPos p).byteCount = s.byteCount := rfl
@[simp] theorem State.withPos_fullBlocks (s : State) (p : Word) :
    (s.withPos p).fullBlocks = s.fullBlocks := rfl
@[simp] theorem State.withPos_remainder (s : State) (p : Word) :
    (s.withPos p).remainder = s.remainder := rfl
@[simp] theorem State.withPos_pos (s : State) (p : Word) :
    (s.withPos p).pos = p := rfl
@[simp] theorem State.withPos_wp (s : State) (p : Word) :
    (s.withPos p).wp = s.wp := rfl
@[simp] theorem State.withPos_faultCount (s : State) (p : Word) :
    (s.withPos p).faultCount = s.faultCount := rfl
@[simp] theorem State.withPos_hdrLen (s : State) (p : Word) :
    (s.withPos p).hdrLen = s.hdrLen := rfl
@[simp] theorem State.withPos_rawDepth (s : State) (p : Word) :
    (s.withPos p).rawDepth = s.rawDepth := rfl
@[simp] theorem State.withPos_rdAcc (s : State) (p : Word) :
    (s.withPos p).rdAcc = s.rdAcc := rfl
@[simp] theorem State.withPos_faults (s : State) (p : Word) :
    (s.withPos p).faults = s.faults := rfl
@[simp] theorem State.withPos_raw (s : State) (p : Word) :
    (s.withPos p).raw = s.raw := rfl
@[simp] theorem State.withPos_rsp (s : State) (p : Word) :
    (s.withPos p).rsp = s.rsp := rfl
@[simp] theorem State.withPos_cmds (s : State) (p : Word) :
    (s.withPos p).cmds = s.cmds := rfl
@[simp] theorem State.withPos_stream (s : State) (p : Word) :
    (s.withPos p).stream = s.stream := rfl
@[simp] theorem State.withPos_cycles (s : State) (p : Word) :
    (s.withPos p).cycles = s.cycles := rfl

/-! ### `State.withRaw` -/

@[simp] theorem State.withRaw_csacc (s : State) (m : List Host.Cell) (p : Word) :
    (s.withRaw m p).csacc = s.csacc := rfl
@[simp] theorem State.withRaw_status (s : State) (m : List Host.Cell) (p : Word) :
    (s.withRaw m p).status = s.status := rfl
@[simp] theorem State.withRaw_startStep (s : State) (m : List Host.Cell) (p : Word) :
    (s.withRaw m p).startStep = s.startStep := rfl
@[simp] theorem State.withRaw_endStep (s : State) (m : List Host.Cell) (p : Word) :
    (s.withRaw m p).endStep = s.endStep := rfl
@[simp] theorem State.withRaw_cluster (s : State) (m : List Host.Cell) (p : Word) :
    (s.withRaw m p).cluster = s.cluster := rfl
@[simp] theorem State.withRaw_sampleCount (s : State) (m : List Host.Cell) (p : Word) :
    (s.withRaw m p).sampleCount = s.sampleCount := rfl
@[simp] theorem State.withRaw_byteCount (s : State) (m : List Host.Cell) (p : Word) :
    (s.withRaw m p).byteCount = s.byteCount := rfl
@[simp] theorem State.withRaw_fullBlocks (s : State) (m : List Host.Cell) (p : Word) :
    (s.withRaw m p).fullBlocks = s.fullBlocks := rfl
@[simp] theorem State.withRaw_remainder (s : State) (m : List Host.Cell) (p : Word) :
    (s.withRaw m p).remainder = s.remainder := rfl
@[simp] theorem State.withRaw_pos (s : State) (m : List Host.Cell) (p : Word) :
    (s.withRaw m p).pos = s.pos := rfl
@[simp] theorem State.withRaw_wp (s : State) (m : List Host.Cell) (p : Word) :
    (s.withRaw m p).wp = p := rfl
@[simp] theorem State.withRaw_faultCount (s : State) (m : List Host.Cell) (p : Word) :
    (s.withRaw m p).faultCount = s.faultCount := rfl
@[simp] theorem State.withRaw_hdrLen (s : State) (m : List Host.Cell) (p : Word) :
    (s.withRaw m p).hdrLen = s.hdrLen := rfl
@[simp] theorem State.withRaw_rawDepth (s : State) (m : List Host.Cell) (p : Word) :
    (s.withRaw m p).rawDepth = s.rawDepth := rfl
@[simp] theorem State.withRaw_rdAcc (s : State) (m : List Host.Cell) (p : Word) :
    (s.withRaw m p).rdAcc = s.rdAcc := rfl
@[simp] theorem State.withRaw_faults (s : State) (m : List Host.Cell) (p : Word) :
    (s.withRaw m p).faults = s.faults := rfl
@[simp] theorem State.withRaw_raw (s : State) (m : List Host.Cell) (p : Word) :
    (s.withRaw m p).raw = m := rfl
@[simp] theorem State.withRaw_rsp (s : State) (m : List Host.Cell) (p : Word) :
    (s.withRaw m p).rsp = s.rsp := rfl
@[simp] theorem State.withRaw_cmds (s : State) (m : List Host.Cell) (p : Word) :
    (s.withRaw m p).cmds = s.cmds := rfl
@[simp] theorem State.withRaw_stream (s : State) (m : List Host.Cell) (p : Word) :
    (s.withRaw m p).stream = s.stream := rfl
@[simp] theorem State.withRaw_cycles (s : State) (m : List Host.Cell) (p : Word) :
    (s.withRaw m p).cycles = s.cycles := rfl

/-! ### `State.withFaults` -/

@[simp] theorem State.withFaults_csacc (s : State) (ks : List Nat) (n : Word) :
    (s.withFaults ks n).csacc = s.csacc := rfl
@[simp] theorem State.withFaults_status (s : State) (ks : List Nat) (n : Word) :
    (s.withFaults ks n).status = s.status := rfl
@[simp] theorem State.withFaults_startStep (s : State) (ks : List Nat) (n : Word) :
    (s.withFaults ks n).startStep = s.startStep := rfl
@[simp] theorem State.withFaults_endStep (s : State) (ks : List Nat) (n : Word) :
    (s.withFaults ks n).endStep = s.endStep := rfl
@[simp] theorem State.withFaults_cluster (s : State) (ks : List Nat) (n : Word) :
    (s.withFaults ks n).cluster = s.cluster := rfl
@[simp] theorem State.withFaults_sampleCount (s : State) (ks : List Nat) (n : Word) :
    (s.withFaults ks n).sampleCount = s.sampleCount := rfl
@[simp] theorem State.withFaults_byteCount (s : State) (ks : List Nat) (n : Word) :
    (s.withFaults ks n).byteCount = s.byteCount := rfl
@[simp] theorem State.withFaults_fullBlocks (s : State) (ks : List Nat) (n : Word) :
    (s.withFaults ks n).fullBlocks = s.fullBlocks := rfl
@[simp] theorem State.withFaults_remainder (s : State) (ks : List Nat) (n : Word) :
    (s.withFaults ks n).remainder = s.remainder := rfl
@[simp] theorem State.withFaults_pos (s : State) (ks : List Nat) (n : Word) :
    (s.withFaults ks n).pos = s.pos := rfl
@[simp] theorem State.withFaults_wp (s : State) (ks : List Nat) (n : Word) :
    (s.withFaults ks n).wp = s.wp := rfl
@[simp] theorem State.withFaults_faultCount (s : State) (ks : List Nat) (n : Word) :
    (s.withFaults ks n).faultCount = n := rfl
@[simp] theorem State.withFaults_hdrLen (s : State) (ks : List Nat) (n : Word) :
    (s.withFaults ks n).hdrLen = s.hdrLen := rfl
@[simp] theorem State.withFaults_rawDepth (s : State) (ks : List Nat) (n : Word) :
    (s.withFaults ks n).rawDepth = s.rawDepth := rfl
@[simp] theorem State.withFaults_rdAcc (s : State) (ks : List Nat) (n : Word) :
    (s.withFaults ks n).rdAcc = s.rdAcc := rfl
@[simp] theorem State.withFaults_faults (s : State) (ks : List Nat) (n : Word) :
    (s.withFaults ks n).faults = ks := rfl
@[simp] theorem State.withFaults_raw (s : State) (ks : List Nat) (n : Word) :
    (s.withFaults ks n).raw = s.raw := rfl
@[simp] theorem State.withFaults_rsp (s : State) (ks : List Nat) (n : Word) :
    (s.withFaults ks n).rsp = s.rsp := rfl
@[simp] theorem State.withFaults_cmds (s : State) (ks : List Nat) (n : Word) :
    (s.withFaults ks n).cmds = s.cmds := rfl
@[simp] theorem State.withFaults_stream (s : State) (ks : List Nat) (n : Word) :
    (s.withFaults ks n).stream = s.stream := rfl
@[simp] theorem State.withFaults_cycles (s : State) (ks : List Nat) (n : Word) :
    (s.withFaults ks n).cycles = s.cycles := rfl

/-! ### `State.withPorts` -/

@[simp] theorem State.withPorts_csacc (s : State) (ws : List CmdWord) (bs : List Byte) (cs : List Cycle) :
    (s.withPorts ws bs cs).csacc = s.csacc := rfl
@[simp] theorem State.withPorts_status (s : State) (ws : List CmdWord) (bs : List Byte) (cs : List Cycle) :
    (s.withPorts ws bs cs).status = s.status := rfl
@[simp] theorem State.withPorts_startStep (s : State) (ws : List CmdWord) (bs : List Byte) (cs : List Cycle) :
    (s.withPorts ws bs cs).startStep = s.startStep := rfl
@[simp] theorem State.withPorts_endStep (s : State) (ws : List CmdWord) (bs : List Byte) (cs : List Cycle) :
    (s.withPorts ws bs cs).endStep = s.endStep := rfl
@[simp] theorem State.withPorts_cluster (s : State) (ws : List CmdWord) (bs : List Byte) (cs : List Cycle) :
    (s.withPorts ws bs cs).cluster = s.cluster := rfl
@[simp] theorem State.withPorts_sampleCount (s : State) (ws : List CmdWord) (bs : List Byte) (cs : List Cycle) :
    (s.withPorts ws bs cs).sampleCount = s.sampleCount := rfl
@[simp] theorem State.withPorts_byteCount (s : State) (ws : List CmdWord) (bs : List Byte) (cs : List Cycle) :
    (s.withPorts ws bs cs).byteCount = s.byteCount := rfl
@[simp] theorem State.withPorts_fullBlocks (s : State) (ws : List CmdWord) (bs : List Byte) (cs : List Cycle) :
    (s.withPorts ws bs cs).fullBlocks = s.fullBlocks := rfl
@[simp] theorem State.withPorts_remainder (s : State) (ws : List CmdWord) (bs : List Byte) (cs : List Cycle) :
    (s.withPorts ws bs cs).remainder = s.remainder := rfl
@[simp] theorem State.withPorts_pos (s : State) (ws : List CmdWord) (bs : List Byte) (cs : List Cycle) :
    (s.withPorts ws bs cs).pos = s.pos := rfl
@[simp] theorem State.withPorts_wp (s : State) (ws : List CmdWord) (bs : List Byte) (cs : List Cycle) :
    (s.withPorts ws bs cs).wp = s.wp := rfl
@[simp] theorem State.withPorts_faultCount (s : State) (ws : List CmdWord) (bs : List Byte) (cs : List Cycle) :
    (s.withPorts ws bs cs).faultCount = s.faultCount := rfl
@[simp] theorem State.withPorts_hdrLen (s : State) (ws : List CmdWord) (bs : List Byte) (cs : List Cycle) :
    (s.withPorts ws bs cs).hdrLen = s.hdrLen := rfl
@[simp] theorem State.withPorts_rawDepth (s : State) (ws : List CmdWord) (bs : List Byte) (cs : List Cycle) :
    (s.withPorts ws bs cs).rawDepth = s.rawDepth := rfl
@[simp] theorem State.withPorts_rdAcc (s : State) (ws : List CmdWord) (bs : List Byte) (cs : List Cycle) :
    (s.withPorts ws bs cs).rdAcc = s.rdAcc := rfl
@[simp] theorem State.withPorts_faults (s : State) (ws : List CmdWord) (bs : List Byte) (cs : List Cycle) :
    (s.withPorts ws bs cs).faults = s.faults := rfl
@[simp] theorem State.withPorts_raw (s : State) (ws : List CmdWord) (bs : List Byte) (cs : List Cycle) :
    (s.withPorts ws bs cs).raw = s.raw := rfl
@[simp] theorem State.withPorts_rsp (s : State) (ws : List CmdWord) (bs : List Byte) (cs : List Cycle) :
    (s.withPorts ws bs cs).rsp = s.rsp := rfl
@[simp] theorem State.withPorts_cmds (s : State) (ws : List CmdWord) (bs : List Byte) (cs : List Cycle) :
    (s.withPorts ws bs cs).cmds = ws := rfl
@[simp] theorem State.withPorts_stream (s : State) (ws : List CmdWord) (bs : List Byte) (cs : List Cycle) :
    (s.withPorts ws bs cs).stream = bs := rfl
@[simp] theorem State.withPorts_cycles (s : State) (ws : List CmdWord) (bs : List Byte) (cs : List Cycle) :
    (s.withPorts ws bs cs).cycles = cs := rfl

/-! ### `armReader` -/

@[simp] theorem armReader_csacc (s : State) (wsel : BitVec 2) (c : BitVec 12) (a b : Word) (sh : Shape) :
    (armReader s wsel c a b sh).csacc = s.csacc := rfl
@[simp] theorem armReader_status (s : State) (wsel : BitVec 2) (c : BitVec 12) (a b : Word) (sh : Shape) :
    (armReader s wsel c a b sh).status = armedStatus wsel := rfl
@[simp] theorem armReader_startStep (s : State) (wsel : BitVec 2) (c : BitVec 12) (a b : Word) (sh : Shape) :
    (armReader s wsel c a b sh).startStep = a := rfl
@[simp] theorem armReader_endStep (s : State) (wsel : BitVec 2) (c : BitVec 12) (a b : Word) (sh : Shape) :
    (armReader s wsel c a b sh).endStep = b := rfl
@[simp] theorem armReader_cluster (s : State) (wsel : BitVec 2) (c : BitVec 12) (a b : Word) (sh : Shape) :
    (armReader s wsel c a b sh).cluster = c.setWidth 32 := rfl
@[simp] theorem armReader_sampleCount (s : State) (wsel : BitVec 2) (c : BitVec 12) (a b : Word) (sh : Shape) :
    (armReader s wsel c a b sh).sampleCount = BitVec.ofNat 32 sh.sampleCount := rfl
@[simp] theorem armReader_byteCount (s : State) (wsel : BitVec 2) (c : BitVec 12) (a b : Word) (sh : Shape) :
    (armReader s wsel c a b sh).byteCount = BitVec.ofNat 32 sh.byteCount := rfl
@[simp] theorem armReader_fullBlocks (s : State) (wsel : BitVec 2) (c : BitVec 12) (a b : Word) (sh : Shape) :
    (armReader s wsel c a b sh).fullBlocks = BitVec.ofNat 32 sh.fullBlocks := rfl
@[simp] theorem armReader_remainder (s : State) (wsel : BitVec 2) (c : BitVec 12) (a b : Word) (sh : Shape) :
    (armReader s wsel c a b sh).remainder = BitVec.ofNat 32 sh.remainder := rfl
@[simp] theorem armReader_pos (s : State) (wsel : BitVec 2) (c : BitVec 12) (a b : Word) (sh : Shape) :
    (armReader s wsel c a b sh).pos = 0 := rfl
@[simp] theorem armReader_wp (s : State) (wsel : BitVec 2) (c : BitVec 12) (a b : Word) (sh : Shape) :
    (armReader s wsel c a b sh).wp = 0 := rfl
@[simp] theorem armReader_faultCount (s : State) (wsel : BitVec 2) (c : BitVec 12) (a b : Word) (sh : Shape) :
    (armReader s wsel c a b sh).faultCount = 0 := rfl
@[simp] theorem armReader_hdrLen (s : State) (wsel : BitVec 2) (c : BitVec 12) (a b : Word) (sh : Shape) :
    (armReader s wsel c a b sh).hdrLen = s.hdrLen := rfl
@[simp] theorem armReader_rawDepth (s : State) (wsel : BitVec 2) (c : BitVec 12) (a b : Word) (sh : Shape) :
    (armReader s wsel c a b sh).rawDepth = s.rawDepth := rfl
@[simp] theorem armReader_rdAcc (s : State) (wsel : BitVec 2) (c : BitVec 12) (a b : Word) (sh : Shape) :
    (armReader s wsel c a b sh).rdAcc = 0 := rfl
@[simp] theorem armReader_faults (s : State) (wsel : BitVec 2) (c : BitVec 12) (a b : Word) (sh : Shape) :
    (armReader s wsel c a b sh).faults = [] := rfl
@[simp] theorem armReader_raw (s : State) (wsel : BitVec 2) (c : BitVec 12) (a b : Word) (sh : Shape) :
    (armReader s wsel c a b sh).raw = s.raw := rfl
@[simp] theorem armReader_rsp (s : State) (wsel : BitVec 2) (c : BitVec 12) (a b : Word) (sh : Shape) :
    (armReader s wsel c a b sh).rsp = s.rsp := rfl
@[simp] theorem armReader_cmds (s : State) (wsel : BitVec 2) (c : BitVec 12) (a b : Word) (sh : Shape) :
    (armReader s wsel c a b sh).cmds = s.cmds := rfl
@[simp] theorem armReader_stream (s : State) (wsel : BitVec 2) (c : BitVec 12) (a b : Word) (sh : Shape) :
    (armReader s wsel c a b sh).stream = s.stream := rfl
@[simp] theorem armReader_cycles (s : State) (wsel : BitVec 2) (c : BitVec 12) (a b : Word) (sh : Shape) :
    (armReader s wsel c a b sh).cycles = s.cycles := rfl

/-! ### `resetStep` -/

@[simp] theorem resetStep_csacc (s : State) :
    (resetStep s).csacc = 0 := rfl
@[simp] theorem resetStep_status (s : State) :
    (resetStep s).status = ⟨.idle, .noError, false, false⟩ := rfl
@[simp] theorem resetStep_startStep (s : State) :
    (resetStep s).startStep = 0 := rfl
@[simp] theorem resetStep_endStep (s : State) :
    (resetStep s).endStep = 0 := rfl
@[simp] theorem resetStep_cluster (s : State) :
    (resetStep s).cluster = 0 := rfl
@[simp] theorem resetStep_sampleCount (s : State) :
    (resetStep s).sampleCount = 0 := rfl
@[simp] theorem resetStep_byteCount (s : State) :
    (resetStep s).byteCount = 0 := rfl
@[simp] theorem resetStep_fullBlocks (s : State) :
    (resetStep s).fullBlocks = 0 := rfl
@[simp] theorem resetStep_remainder (s : State) :
    (resetStep s).remainder = 0 := rfl
@[simp] theorem resetStep_pos (s : State) :
    (resetStep s).pos = 0 := rfl
@[simp] theorem resetStep_wp (s : State) :
    (resetStep s).wp = 0 := rfl
@[simp] theorem resetStep_faultCount (s : State) :
    (resetStep s).faultCount = 0 := rfl
@[simp] theorem resetStep_hdrLen (s : State) :
    (resetStep s).hdrLen = s.hdrLen := rfl
@[simp] theorem resetStep_rawDepth (s : State) :
    (resetStep s).rawDepth = s.rawDepth := rfl
@[simp] theorem resetStep_rdAcc (s : State) :
    (resetStep s).rdAcc = 0 := rfl
@[simp] theorem resetStep_faults (s : State) :
    (resetStep s).faults = [] := rfl
@[simp] theorem resetStep_raw (s : State) :
    (resetStep s).raw = [] := rfl
@[simp] theorem resetStep_rsp (s : State) :
    (resetStep s).rsp = none := rfl
@[simp] theorem resetStep_cmds (s : State) :
    (resetStep s).cmds = s.cmds := rfl
@[simp] theorem resetStep_stream (s : State) :
    (resetStep s).stream = s.stream := rfl
@[simp] theorem resetStep_cycles (s : State) :
    (resetStep s).cycles = s.cycles := rfl

/-! ### Layout functions read only CSRs 6, 7 and 11 -/

@[simp] theorem State.withRsp_roleAt (s : State) (r : Option Response) : (s.withRsp r).roleAt = s.roleAt := rfl
@[simp] theorem State.withRsp_streamLen (s : State) (r : Option Response) : (s.withRsp r).streamLen = s.streamLen := rfl
@[simp] theorem State.withCsacc_roleAt (s : State) (v : Residue) : (s.withCsacc v).roleAt = s.roleAt := rfl
@[simp] theorem State.withCsacc_streamLen (s : State) (v : Residue) : (s.withCsacc v).streamLen = s.streamLen := rfl
@[simp] theorem State.withRdAcc_roleAt (s : State) (v : Residue) : (s.withRdAcc v).roleAt = s.roleAt := rfl
@[simp] theorem State.withRdAcc_streamLen (s : State) (v : Residue) : (s.withRdAcc v).streamLen = s.streamLen := rfl
@[simp] theorem State.withStatus_roleAt (s : State) (r : StatusReg) : (s.withStatus r).roleAt = s.roleAt := rfl
@[simp] theorem State.withStatus_streamLen (s : State) (r : StatusReg) : (s.withStatus r).streamLen = s.streamLen := rfl
@[simp] theorem State.withPos_roleAt (s : State) (p : Word) : (s.withPos p).roleAt = s.roleAt := rfl
@[simp] theorem State.withPos_streamLen (s : State) (p : Word) : (s.withPos p).streamLen = s.streamLen := rfl
@[simp] theorem State.withRaw_roleAt (s : State) (m : List Host.Cell) (p : Word) :
    (s.withRaw m p).roleAt = s.roleAt := rfl
@[simp] theorem State.withRaw_streamLen (s : State) (m : List Host.Cell) (p : Word) :
    (s.withRaw m p).streamLen = s.streamLen := rfl
@[simp] theorem State.withFaults_roleAt (s : State) (ks : List Nat) (n : Word) :
    (s.withFaults ks n).roleAt = s.roleAt := rfl
@[simp] theorem State.withFaults_streamLen (s : State) (ks : List Nat) (n : Word) :
    (s.withFaults ks n).streamLen = s.streamLen := rfl
@[simp] theorem State.withPorts_roleAt (s : State) (ws : List CmdWord) (bs : List Byte) (cs : List Cycle) :
    (s.withPorts ws bs cs).roleAt = s.roleAt := rfl
@[simp] theorem State.withPorts_streamLen (s : State) (ws : List CmdWord) (bs : List Byte) (cs : List Cycle) :
    (s.withPorts ws bs cs).streamLen = s.streamLen := rfl

/-! ### The STATUS updates -/

@[simp] theorem armedStatus_ph (w : BitVec 2) : (armedStatus w).ph = .active := rfl
@[simp] theorem armedStatus_iok (w : BitVec 2) : (armedStatus w).iok = .noError := rfl
@[simp] theorem armedStatus_anyf (w : BitVec 2) : (armedStatus w).anyf = false := rfl
@[simp] theorem armedStatus_cw (w : BitVec 2) : (armedStatus w).cw = w.getLsbD 0 := rfl
@[simp] theorem failedStatus_ph (r : StatusReg) (k : IoKind) : (failedStatus r k).ph = .ioerr := rfl
@[simp] theorem failedStatus_iok (r : StatusReg) (k : IoKind) : (failedStatus r k).iok = k := rfl
@[simp] theorem failedStatus_anyf (r : StatusReg) (k : IoKind) : (failedStatus r k).anyf = r.anyf := rfl
@[simp] theorem failedStatus_cw (r : StatusReg) (k : IoKind) : (failedStatus r k).cw = r.cw := rfl
@[simp] theorem faultedStatus_ph (r : StatusReg) : (faultedStatus r).ph = r.ph := rfl
@[simp] theorem faultedStatus_iok (r : StatusReg) : (faultedStatus r).iok = r.iok := rfl
@[simp] theorem faultedStatus_anyf (r : StatusReg) : (faultedStatus r).anyf = true := rfl
@[simp] theorem faultedStatus_cw (r : StatusReg) : (faultedStatus r).cw = r.cw := rfl
@[simp] theorem doneStatus_ph (r : StatusReg) : (doneStatus r).ph = .done := rfl
@[simp] theorem doneStatus_iok (r : StatusReg) : (doneStatus r).iok = r.iok := rfl
@[simp] theorem doneStatus_anyf (r : StatusReg) : (doneStatus r).anyf = r.anyf := rfl
@[simp] theorem doneStatus_cw (r : StatusReg) : (doneStatus r).cw = r.cw := rfl

/-- Writing the response output twice is writing it once. -/
@[simp] theorem State.withRsp_withRsp (s : State) (r q : Option Response) :
    (s.withRsp r).withRsp q = s.withRsp q := rfl

end Sys2Proof.Machine
end

