-- ==== Sys2Proof/Laws/Faults.lean ====
section
/-! SUPPORT. The fault bitmap as its ascending list of set indices (10_state.md R31). -/

namespace Sys2Proof.Machine

/-- Which indices are set after one is set. -/
@[simp] theorem mem_faultSet (ks : List Nat) (k j : Nat) : j ∈ faultSet ks k ↔ j = k ∨ j ∈ ks := by
  induction ks with
  | nil => simp [faultSet]
  | cons a ks ih =>
    unfold faultSet
    split
    · simp
    · split
      · next h => subst h; simp
      · simp only [List.mem_cons, ih]; tauto

/-- Setting an index keeps the list strictly ascending. -/
theorem faultSet_pairwise {ks : List Nat} (h : ks.Pairwise (· < ·)) (k : Nat) : (faultSet ks k).Pairwise (· < ·) := by
  induction ks with
  | nil => simp [faultSet]
  | cons a ks ih =>
    obtain ⟨ha, hks⟩ := List.pairwise_cons.mp h
    unfold faultSet
    split
    · next hlt =>
      refine List.pairwise_cons.mpr ⟨fun j hj => ?_, h⟩
      rcases List.mem_cons.mp hj with rfl | hj
      · exact hlt
      · exact lt_trans hlt (ha j hj)
    · split
      · exact h
      · next hle hne =>
        refine List.pairwise_cons.mpr ⟨fun j hj => ?_, ih hks⟩
        rcases (mem_faultSet ks k j).mp hj with rfl | hj
        · omega
        · exact ha j hj

/-- Setting a clear index of an ascending list makes it one longer. -/
theorem faultSet_length {ks : List Nat} {k : Nat} (h : k ∉ ks) : (faultSet ks k).length = ks.length + 1 := by
  induction ks with
  | nil => simp [faultSet]
  | cons a ks ih =>
    rw [List.mem_cons, not_or] at h
    obtain ⟨hne, hks⟩ := h
    unfold faultSet
    rw [if_neg hne]
    split
    · simp
    · simp [ih hks]

/-- Setting an index that is set changes nothing. -/
theorem faultSet_of_mem {ks : List Nat} (hs : ks.Pairwise (· < ·)) {k : Nat} (h : k ∈ ks) : faultSet ks k = ks := by
  induction ks with
  | nil => simp at h
  | cons a ks ih =>
    obtain ⟨ha, hks⟩ := List.pairwise_cons.mp hs
    unfold faultSet
    rcases List.mem_cons.mp h with rfl | h
    · simp
    · have := ha k h
      rw [if_neg (by omega), if_neg (by omega), ih hks h]

end Sys2Proof.Machine
end

