-- ==== Sys2Proof/Laws/Layout.lean ====
section
/-! SUPPORT. The layout of the stream (43_block_reader.md R96, R97): what a role says of its position, and how many
payload positions lie below a position. -/

namespace Sys2Proof.Machine

/-- The payload positions below `n` (10_state.md R38 e), in closed form. -/
def payBelow (h fb rem n : Nat) : Nat :=
  if n ≤ h then 0
  else if n ≤ h + 66 * fb then 64 * ((n - h) / 66) + min ((n - h) % 66) 64
  else 64 * fb + min (n - (h + 66 * fb)) rem

/-- A position has one of the roles, each with what it says of the position (R97). -/
theorem role_cases (h fb rem i : Nat) :
    (i < h ∧ role h fb rem i = .hdr) ∨
    (∃ k o, k < fb ∧ o < 64 ∧ i = h + 66 * k + o ∧ role h fb rem i = .pay k o) ∨
    (∃ k, k < fb ∧ i = h + 66 * k + 64 ∧ role h fb rem i = .sum k) ∨
    (∃ k, k < fb ∧ i = h + 66 * k + 65 ∧ role h fb rem i = .term) ∨
    (∃ o, o < rem ∧ i = h + 66 * fb + o ∧ role h fb rem i = .pay fb o) ∨
    (i = h + 66 * fb + rem ∧ role h fb rem i = .sum fb) ∨
    (h + 66 * fb + rem < i ∧ role h fb rem i = .term) := by
  unfold role blockSpan blockLen
  split
  · next h1 => exact .inl ⟨h1, rfl⟩
  · next h1 =>
    split
    · next h2 =>
      have hdiv : (i - h) / 66 < fb := by omega
      have hdm := Nat.div_add_mod (i - h) 66
      split
      · next h3 => exact .inr (.inl ⟨_, _, hdiv, h3, by omega, rfl⟩)
      · next h3 =>
        split
        · next h4 => exact .inr (.inr (.inl ⟨_, hdiv, by omega, rfl⟩))
        · next h4 => exact .inr (.inr (.inr (.inl ⟨(i - h) / 66, hdiv, by omega, rfl⟩)))
    · next h2 =>
      split
      · next h3 => exact .inr (.inr (.inr (.inr (.inl ⟨_, h3, by omega, rfl⟩))))
      · next h3 =>
        split
        · next h4 => exact .inr (.inr (.inr (.inr (.inr (.inl ⟨by omega, rfl⟩)))))
        · next h4 => exact .inr (.inr (.inr (.inr (.inr (.inr ⟨by omega, rfl⟩)))))

/-- No payload position lies below 0. -/
@[simp] theorem payBelow_zero (h fb rem : Nat) : payBelow h fb rem 0 = 0 := by simp [payBelow]

/-- All payload positions lie below `L`. -/
theorem payBelow_streamLength (h fb rem : Nat) : payBelow h fb rem (streamLength h fb rem) = 64 * fb + rem := by
  unfold payBelow streamLength blockSpan blockLen
  rw [if_neg (by omega), if_neg (by omega)]
  omega

/-- There are never more than `64 * fb + rem` payload positions. -/
theorem payBelow_le (h fb rem n : Nat) : payBelow h fb rem n ≤ 64 * fb + rem := by
  unfold payBelow
  split
  · omega
  · split
    · next h2 =>
      have : (n - h) / 66 ≤ fb := by omega
      have := Nat.div_add_mod (n - h) 66
      omega
    · omega

/-- A payload position adds one, any other adds none; and `PAY(k, o)` is payload byte `64 * k + o` (R97). -/
theorem payBelow_succ (h fb rem i : Nat) :
    match role h fb rem i with
    | .pay k o => payBelow h fb rem i = 64 * k + o ∧ payBelow h fb rem (i + 1) = 64 * k + o + 1
    | _ => payBelow h fb rem (i + 1) = payBelow h fb rem i := by
  rcases role_cases h fb rem i with ⟨hi, hr⟩ | ⟨k, o, hk, ho, hi, hr⟩ | ⟨k, hk, hi, hr⟩ | ⟨k, hk, hi, hr⟩ |
    ⟨o, ho, hi, hr⟩ | ⟨hi, hr⟩ | ⟨hi, hr⟩ <;> simp only [hr]
  · simp only [payBelow]
    rw [if_pos (by omega), if_pos (by omega)]
  · have e0 : (i - h) / 66 = k := by omega
    have e1 : (i - h) % 66 = o := by omega
    have e2 : (i + 1 - h) / 66 = k := by omega
    have e3 : (i + 1 - h) % 66 = o + 1 := by omega
    simp only [payBelow, e0, e1, e2, e3]
    constructor <;> split_ifs <;> omega
  · have e0 : (i - h) / 66 = k := by omega
    have e1 : (i - h) % 66 = 64 := by omega
    have e2 : (i + 1 - h) / 66 = k := by omega
    have e3 : (i + 1 - h) % 66 = 65 := by omega
    simp only [payBelow, e0, e1, e2, e3]
    split_ifs <;> omega
  · have e0 : (i - h) / 66 = k := by omega
    have e1 : (i - h) % 66 = 65 := by omega
    have e2 : (i + 1 - h) / 66 = k + 1 := by omega
    have e3 : (i + 1 - h) % 66 = 0 := by omega
    simp only [payBelow, e0, e1, e2, e3]
    split_ifs <;> omega
  · simp only [payBelow]
    constructor <;> split_ifs <;> omega
  · simp only [payBelow]
    split_ifs <;> omega
  · simp only [payBelow]
    split_ifs <;> omega

end Sys2Proof.Machine
end

