-- ==== Sys2Proof/Laws/Memory.lean ====
section
/-! SUPPORT. RAW as a list of cells: read after write, the canonical form kept by every operation, and runs of bytes
(20_memory.md R40, R44). -/

namespace Sys2Proof.Machine

/-- Reading the byte just written gives it. -/
@[simp] theorem rawGet_rawSet_same (m : List Host.Cell) (k : Nat) (v : Byte) : rawGet (rawSet m k v) k = some v := by
  induction m with
  | nil => simp [rawSet, rawGet]
  | cons c m ih =>
    obtain ⟨a, x⟩ := c
    unfold rawSet
    split
    · simp [rawGet]
    · split
      · simp [rawGet]
      · simp_all [rawGet]

/-- A write leaves every other address alone. -/
theorem rawGet_rawSet_other (m : List Host.Cell) (k j : Nat) (v : Byte) (h : j ≠ k) :
    rawGet (rawSet m k v) j = rawGet m j := by
  induction m with
  | nil => simp [rawSet, rawGet, h]
  | cons c m ih =>
    obtain ⟨a, x⟩ := c
    unfold rawSet
    split
    · simp [rawGet, h]
    · split
      · next hk => subst hk; simp [rawGet, h]
      · simp only [rawGet, ih]

/-- One byte of RAW after a write. -/
theorem rawGet_rawSet (m : List Host.Cell) (k j : Nat) (v : Byte) :
    rawGet (rawSet m k v) j = if j = k then some v else rawGet m j := by
  split
  · next h => rw [h, rawGet_rawSet_same]
  · next h => exact rawGet_rawSet_other m k j v h

/-- The addresses of RAW after a write. -/
theorem mem_rawSet {m : List Host.Cell} {k : Nat} {v : Byte} {c : Host.Cell} (h : c ∈ rawSet m k v) :
    c = (k, v) ∨ c ∈ m := by
  induction m with
  | nil => simpa [rawSet] using h
  | cons d m ih =>
    obtain ⟨a, x⟩ := d
    unfold rawSet at h
    split at h
    · simpa using h
    · split at h
      · simp only [List.mem_cons] at h ⊢
        tauto
      · simp only [List.mem_cons] at h ⊢
        rcases h with h | h
        · exact .inr (.inl h)
        · rcases ih h with h | h
          · exact .inl h
          · exact .inr (.inr h)

/-- The canonical form, as a proposition. -/
theorem Memory.wf_iff (m : List Host.Cell) : Memory.wf m = true ↔ m.Pairwise fun x y => x.1 < y.1 := by
  simp [Memory.wf]

/-- The empty RAW is canonical. -/
theorem Memory.wf_nil : Memory.wf [] = true := rfl

/-- A write keeps the canonical form. -/
theorem Memory.wf_rawSet {m : List Host.Cell} (h : Memory.wf m = true) (k : Nat) (v : Byte) :
    Memory.wf (rawSet m k v) = true := by
  rw [Memory.wf_iff] at h ⊢
  induction m with
  | nil => simp [rawSet]
  | cons c m ih =>
    obtain ⟨a, x⟩ := c
    obtain ⟨hc, hm⟩ := List.pairwise_cons.mp h
    unfold rawSet
    split
    · next hlt =>
      refine List.pairwise_cons.mpr ⟨fun d hd => ?_, h⟩
      rcases List.mem_cons.mp hd with rfl | hd
      · exact hlt
      · exact lt_trans hlt (hc d hd)
    · split
      · next heq => subst heq; exact List.pairwise_cons.mpr ⟨hc, hm⟩
      · next hle hne =>
        refine List.pairwise_cons.mpr ⟨fun d hd => ?_, ih hm⟩
        rcases mem_rawSet hd with rfl | hd
        · show a < k; omega
        · exact hc d hd

/-- RAW of the reset state is canonical. -/
theorem Memory.wf_reset : Memory.wf State.reset.raw = true := rfl

/-- `rawBytes` answers exactly when every byte of the range has been written. -/
theorem rawBytes_isSome {m : List Host.Cell} {addr n : Nat} :
    (rawBytes m addr n).isSome = true ↔ ∀ j < n, (rawGet m (addr + j)).isSome = true := by
  induction n generalizing addr with
  | zero => simp [rawBytes]
  | succ n ih =>
    have hsplit : (∀ j < n + 1, (rawGet m (addr + j)).isSome = true) ↔
        (rawGet m addr).isSome = true ∧ ∀ j < n, (rawGet m (addr + 1 + j)).isSome = true := by
      constructor
      · intro h
        exact ⟨h 0 (by omega), fun j hj => by
          have := h (j + 1) (by omega)
          rwa [show addr + (j + 1) = addr + 1 + j by omega] at this⟩
      · rintro ⟨h0, h1⟩ j hj
        cases j with
        | zero => exact h0
        | succ j =>
          have := h1 j (by omega)
          rwa [show addr + 1 + j = addr + (j + 1) by omega] at this
    rw [hsplit, ← ih]
    simp only [rawBytes]
    cases rawGet m addr <;> cases rawBytes m (addr + 1) n <;> simp

/-- What `rawBytes` reads: as many bytes as asked, each the byte of its address. -/
theorem rawBytes_eq_some {m : List Host.Cell} {addr n : Nat} {bs : List Byte} (h : rawBytes m addr n = some bs) :
    bs.length = n ∧ ∀ j < n, rawGet m (addr + j) = bs[j]? := by
  induction n generalizing addr bs with
  | zero => simp_all [rawBytes]
  | succ n ih =>
    unfold rawBytes at h
    split at h
    · next b rest hb hrest =>
      obtain rfl := Option.some.inj h
      obtain ⟨hl, hg⟩ := ih hrest
      refine ⟨by simp [hl], fun j hj => ?_⟩
      cases j with
      | zero => simpa using hb
      | succ j =>
        have := hg j (by omega)
        rw [show addr + (j + 1) = addr + 1 + j by omega, this]
        simp
    · exact absurd h (by simp)

end Sys2Proof.Machine
end

