-- ==== Sys2Proof/Laws/Ops.lean ====
section
/-! SUPPORT. What each shared operation can do, said once: answers to the host, RAW and FAULT accesses, the entry into
IOERR (Machine/Ops.lean). -/

namespace Sys2Proof.Machine

/-- An answered operation changes the response output alone. -/
theorem respond_eq_next {s t : State} {v : Word} : respond s v = .next t ↔ t = s.withRsp (some ⟨.ok, v⟩) := by
  simp [respond, eq_comm]

/-- A refused operation changes the response output alone (R120). -/
theorem raise_eq_next {s t : State} {e : RspCode} : raise s e = .next t ↔ t = s.withRsp (some ⟨e, 0⟩) := by
  simp [raise, eq_comm]

/-- What a load reads: bytes that exist, as many as asked, each the byte of its address (R11, R44). -/
theorem rawLoad_eq_ok {s : State} {addr n : Nat} {bs : List Byte} (h : rawLoad s addr n = .ok bs) :
    addr + n ≤ s.byteCount.toNat ∧ addr + n ≤ s.rawDepth.toNat ∧ bs.length = n ∧
      ∀ j < n, rawGet s.raw (addr + j) = bs[j]? := by
  unfold rawLoad at h
  split at h
  · next hb =>
    split at h
    · next bs' hbs =>
      obtain rfl := Except.ok.inj h
      exact ⟨hb.1, hb.2, rawBytes_eq_some hbs⟩
    · exact absurd h (by simp)
  · exact absurd h (by simp)

/-- A load inside BYTE_COUNT and RAW_DEPTH of bytes that have all been written succeeds. -/
theorem rawLoad_of_written {s : State} {addr n : Nat} (hb : addr + n ≤ s.byteCount.toNat)
    (hd : addr + n ≤ s.rawDepth.toNat) (hw : ∀ j < n, (rawGet s.raw (addr + j)).isSome = true) :
    ∃ bs, rawBytes s.raw addr n = some bs ∧ rawLoad s addr n = .ok bs := by
  obtain ⟨bs, hbs⟩ := Option.isSome_iff_exists.mp (rawBytes_isSome.mpr hw)
  exact ⟨bs, hbs, by simp [rawLoad, hb, hd, hbs]⟩

/-- The one store of the hardware (R99): inside RAW_DEPTH, at WP, which moves up by one. -/
theorem rawStore_eq_ok {s t : State} {b : Byte} :
    rawStore s b = .ok t ↔
      s.wp.toNat < s.rawDepth.toNat ∧ t = s.withRaw (rawSet s.raw s.wp.toNat b) (s.wp + 1) := by
  unfold rawStore
  split <;> simp [*, eq_comm]

/-- A fault bit that exists is whether its index is listed (R31). -/
theorem faultBit_eq_ok {s : State} {k : Nat} {f : Bool} :
    faultBit s k = .ok f ↔ k < maxBlocks s ∧ f = s.faults.contains k := by
  unfold faultBit
  split <;> simp [*, eq_comm]

/-- What recording a mismatch writes (R99, R123). -/
theorem recordFault_eq_ok {s t : State} {k : Nat} :
    recordFault s k = .ok t ↔
      k < maxBlocks s ∧ t = (s.withFaults (faultSet s.faults k)
        (if s.faults.contains k then s.faultCount else s.faultCount + 1)).withStatus (faultedStatus s.status) := by
  unfold recordFault
  split <;> simp [*, eq_comm]

/-- Entering IOERR writes STATUS alone (R126). -/
@[simp] theorem enterIoErr_status (s : State) (k : IoKind) : (enterIoErr s k).status = failedStatus s.status k := rfl

end Sys2Proof.Machine
end

