-- ==== Sys2Proof/Laws/Reader.lean ====
section
/-! SUPPORT. What the block reader's events and operations can do, said once (43_block_reader.md). -/

namespace Sys2Proof.Machine

/-- The position moves and the last byte makes the phase DONE (R99, R101). -/
theorem advance_eq (s : State) (i : Nat) :
    advance s i = (s.withPos (BitVec.ofNat 32 (i + 1))).withStatus
      (if i + 1 = s.streamLen then doneStatus s.status else s.status) := by
  unfold advance
  split <;> rfl

/-- What consuming a byte can do, by its role (R99). -/
theorem consumeByte_eq_ok {s t : State} {r : Role} {b : Byte} (h : consumeByte s r b = .ok t) :
    ((r = .hdr ∨ r = .term) ∧ t = s) ∨
    (∃ k o, r = .pay k o ∧ s.wp.toNat < s.rawDepth.toNat ∧
      t = (s.withRaw (rawSet s.raw s.wp.toNat b) (s.wp + 1)).withRdAcc (addResidue s.rdAcc b)) ∨
    (∃ k, r = .sum k ∧ b = sumByte s.rdAcc ∧ t = s.withRdAcc 0) ∨
    (∃ k, r = .sum k ∧ b ≠ sumByte s.rdAcc ∧ k < maxBlocks s ∧
      t = ((s.withFaults (faultSet s.faults k)
        (if s.faults.contains k then s.faultCount else s.faultCount + 1)).withStatus
          (faultedStatus s.status)).withRdAcc 0) := by
  cases r with
  | hdr => exact .inl ⟨.inl rfl, (Except.ok.inj h).symm⟩
  | term => exact .inl ⟨.inr rfl, (Except.ok.inj h).symm⟩
  | pay k o =>
    simp only [consumeByte] at h
    split at h
    · next u hu =>
      obtain ⟨hlt, rfl⟩ := rawStore_eq_ok.mp hu
      exact .inr (.inl ⟨k, o, rfl, hlt, (Except.ok.inj h).symm⟩)
    · exact absurd h (by simp)
  | sum k =>
    simp only [consumeByte] at h
    split at h
    · next hb => exact .inr (.inr (.inl ⟨k, rfl, hb, (Except.ok.inj h).symm⟩))
    · next hb =>
      split at h
      · next u hu =>
        obtain ⟨hlt, rfl⟩ := recordFault_eq_ok.mp hu
        exact .inr (.inr (.inr ⟨k, rfl, hb, hlt, (Except.ok.inj h).symm⟩))
      · exact absurd h (by simp)

/-- An `rx` step that answers has consumed the byte by its role and moved on (R99). -/
theorem rxStep_eq_next {s t : State} {b : Byte} (h : rxStep b s = .next t) :
    s.pos.toNat < s.streamLen ∧
      ∃ u, consumeByte s (s.roleAt s.pos.toNat) b = .ok u ∧ t = (advance u s.pos.toNat).withRsp none := by
  unfold rxStep at h
  split at h
  · next hlt =>
    split at h
    · next u hu => exact ⟨hlt, u, hu, (Host.Outcome.next.inj h).symm⟩
    · exact absurd h (by simp)
  · exact absurd h (by simp)

/-- A transport failure is taken while ACTIVE and ignored otherwise (R100). -/
theorem rxFailStep_eq (k : BitVec 2) (s : State) :
    rxFailStep k s = (s.withStatus
      (if s.status.ph = .active then failedStatus s.status (ioKindOf k) else s.status)).withRsp none := by
  unfold rxFailStep enterIoErr
  split <;> rfl

/-- RDSTART either is refused or arms the reader with a shape that fits RAW (R95). -/
theorem execRdstart_eq_next {wsel : BitVec 2} {c : BitVec 12} {a b : Word} {s t : State}
    (h : execRdstart wsel c a b s = .next t) :
    (∃ e, e ≠ .ok ∧ t = s.withRsp (some ⟨e, 0⟩)) ∨
    (wsel.toNat < 2 ∧ s.status.ph ≠ .active ∧ c ≠ 0 ∧ a.toNat < b.toNat ∧
      (shape a.toNat b.toNat c.toNat (fieldWidth wsel)).byteCount ≤ s.rawDepth.toNat ∧
      t = (armReader s wsel c a b (shape a.toNat b.toNat c.toNat (fieldWidth wsel))).withRsp (some ⟨.ok, 0⟩)) := by
  unfold execRdstart at h
  split_ifs at h with h1 h2 h3 h4
  · exact .inl ⟨_, by simp, raise_eq_next.mp h⟩
  · exact .inl ⟨_, by simp, raise_eq_next.mp h⟩
  · exact .inl ⟨_, by simp, raise_eq_next.mp h⟩
  · exact .inl ⟨_, by simp, raise_eq_next.mp h⟩
  · rw [not_or] at h3
    exact .inr ⟨by omega, h2, h3.1, by omega, by omega, respond_eq_next.mp h⟩

/-- RDREG answers or is refused; either way it changes the response output alone (R102). -/
theorem execRdreg_eq_next {n : BitVec 12} {s t : State} (h : execRdreg n s = .next t) :
    ∃ r, (r.status = .ok ∨ r.result = 0) ∧ t = s.withRsp (some r) := by
  unfold execRdreg at h
  split at h
  · exact ⟨_, .inl rfl, respond_eq_next.mp h⟩
  · exact ⟨_, .inr rfl, raise_eq_next.mp h⟩

/-- RDSAMP, where it answers at all, changes the response output alone (R103). -/
theorem execRdsamp_eq_next {n : Word} {s t : State} (h : execRdsamp n s = .next t) :
    ∃ r, (r.status = .ok ∨ r.result = 0) ∧ t = s.withRsp (some r) := by
  unfold execRdsamp at h
  split_ifs at h
  · exact ⟨_, .inr rfl, raise_eq_next.mp h⟩
  · exact ⟨_, .inr rfl, raise_eq_next.mp h⟩
  · split at h
    · exact ⟨_, .inl rfl, respond_eq_next.mp h⟩
    · exact absurd h (by simp)

/-- RDRAW, where it answers at all, changes the response output alone (R104). -/
theorem execRdraw_eq_next {a : Word} {s t : State} (h : execRdraw a s = .next t) :
    ∃ r, (r.status = .ok ∨ r.result = 0) ∧ t = s.withRsp (some r) := by
  unfold execRdraw at h
  split_ifs at h
  · exact ⟨_, .inr rfl, raise_eq_next.mp h⟩
  · exact ⟨_, .inr rfl, raise_eq_next.mp h⟩
  · split at h
    · exact ⟨_, .inl rfl, respond_eq_next.mp h⟩
    · exact absurd h (by simp)

/-- RDFLT, where it answers at all, changes the response output alone (R105). -/
theorem execRdflt_eq_next {k : Word} {s t : State} (h : execRdflt k s = .next t) :
    ∃ r, (r.status = .ok ∨ r.result = 0) ∧ t = s.withRsp (some r) := by
  unfold execRdflt at h
  split_ifs at h
  · exact ⟨_, .inr rfl, raise_eq_next.mp h⟩
  · exact ⟨_, .inr rfl, raise_eq_next.mp h⟩
  · split at h
    · exact ⟨_, .inl rfl, respond_eq_next.mp h⟩
    · exact absurd h (by simp)

end Sys2Proof.Machine
end

