-- ==== Sys2Proof/Laws/Ports.lean ====
section
/-! SUPPORT. Which atomic step comes next and in which state it is taken (10_state.md R34, R35; Machine/Ports.lean). -/

namespace Sys2Proof.Machine

/-- The host's step is a command and takes its word from the command port (R34). -/
theorem hostEvent_eq_some {c : Cycle} {s : State} {p : StepKind × State} (h : hostEvent c s = some p) :
    ∃ w ws, c.cmdValid = true ∧ s.cmds = w :: ws ∧ p = (.cmd w, s.withPorts ws s.stream s.cycles) := by
  unfold hostEvent at h
  split at h
  · next w ws hc hs => exact ⟨w, ws, hc, hs, (Option.some.inj h).symm⟩
  · exact absurd h (by simp)

/-- The transport's step is a failure, or a byte taken while `rx_ready = 1` (R35). -/
theorem transportEvent_eq_some {c : Cycle} {s : State} {p : StepKind × State} (h : transportEvent c s = some p) :
    (∃ k, c.rxFail = some k ∧ p = (.rxFail k, s)) ∨
    (∃ b bs, c.rxFail = none ∧ c.rxValid = true ∧ s.status.ph = .active ∧ s.stream = b :: bs ∧
      p = (.rx b, s.withPorts s.cmds bs s.cycles)) := by
  unfold transportEvent at h
  split at h
  · next k hk => exact .inl ⟨k, hk, (Option.some.inj h).symm⟩
  · next hk =>
    split at h
    · next b bs hv hs =>
      obtain ⟨hv, hr⟩ := Bool.and_eq_true_iff.mp hv
      exact .inr ⟨b, bs, hk, hv, by simpa [rxReady] using hr, hs, (Option.some.inj h).symm⟩
    · exact absurd h (by simp)

/-- What the next atomic step is, in a state that differs from the state before it at the ports alone (R12). -/
theorem nextStep_cases (s : State) :
    ∃ k ws bs cs, nextStep s = (k, s.withPorts ws bs cs) ∧ (∀ b, k = .rx b → s.status.ph = .active) := by
  unfold nextStep
  split
  · exact ⟨.idle, s.cmds, s.stream, s.cycles, rfl, by simp⟩
  · next c cs _ =>
    unfold nextOfCycle
    split
    · exact ⟨.reset, _, _, _, rfl, by simp⟩
    · split
      · next h hh _ =>
        obtain ⟨w, ws, -, -, rfl⟩ := hostEvent_eq_some hh
        exact ⟨.cmd w, _, _, _, rfl, by simp⟩
      · next t _ ht =>
        rcases transportEvent_eq_some ht with ⟨k, -, rfl⟩ | ⟨b, bs, -, -, ha, -, rfl⟩
        · exact ⟨.rxFail k, _, _, _, rfl, by simp⟩
        · exact ⟨.rx b, _, _, _, rfl, fun _ _ => ha⟩
      · next h t hh ht =>
        split
        · obtain ⟨w, ws, -, -, rfl⟩ := hostEvent_eq_some hh
          exact ⟨.cmd w, _, _, _, rfl, by simp⟩
        · rcases transportEvent_eq_some ht with ⟨k, -, rfl⟩ | ⟨b, bs, -, -, ha, -, rfl⟩
          · exact ⟨.rxFail k, _, _, _, rfl, by simp⟩
          · exact ⟨.rx b, _, _, _, rfl, fun _ _ => ha⟩
      · exact ⟨.idle, _, _, _, rfl, by simp⟩

/-- What a step that answers has done, by the event it took (R12). -/
theorem step_eq_next {s t : State} (h : step s = .next t) :
    ∃ k ws bs cs, nextStep s = (k, s.withPorts ws bs cs) ∧
      match k with
      | .cmd w => runCommand w (s.withPorts ws bs cs) = .next t
      | .rx b => s.status.ph = .active ∧ rxStep b (s.withPorts ws bs cs) = .next t
      | .rxFail k => t = rxFailStep k (s.withPorts ws bs cs)
      | .reset => t = resetStep (s.withPorts ws bs cs)
      | .idle => t = (s.withPorts ws bs cs).withRsp none := by
  obtain ⟨k, ws, bs, cs, hk, ha⟩ := nextStep_cases s
  refine ⟨k, ws, bs, cs, hk, ?_⟩
  unfold step at h
  rw [hk] at h
  cases k with
  | cmd w => exact h
  | rx b => exact ⟨ha b rfl, h⟩
  | rxFail k => exact (Host.Outcome.next.inj h).symm
  | reset => exact (Host.Outcome.next.inj h).symm
  | idle => exact (Host.Outcome.next.inj h).symm

/-- The word of a table row, on the command port (log 3). -/
theorem withFetchWord_eq_presenting (s : State) (w : CmdWord) : s.withFetchWord 96 w.toNat = s.presenting w := by
  unfold State.withFetchWord
  rw [Nat.mod_eq_of_lt w.isLt, BitVec.ofNat_toNat, BitVec.setWidth_eq]

end Sys2Proof.Machine
end

