-- ==== Sys2Proof/Laws/Invariant.lean ====
section
/-! SUPPORT. What the invariants give at a position of the stream (10_state.md R38, 43_block_reader.md R97), and that
they do not speak of CSACC, the response output or the ports. -/

namespace Sys2Proof.Machine

/-- R38 (e)'s count in closed form. -/
theorem payCount_eq (s : State) (n : Nat) :
    payCount s n = payBelow s.hdrLen.toNat s.fullBlocks.toNat s.remainder.toNat n := by
  induction n with
  | zero => simp [payCount]
  | succ n ih =>
    have h := payBelow_succ s.hdrLen.toNat s.fullBlocks.toNat s.remainder.toNat n
    have hs : payCount s (n + 1) = payCount s n + if (s.roleAt n).isPay then 1 else 0 := by
      simp only [payCount, List.range_succ, List.filter_append, List.length_append]
      split <;> simp_all
    rw [hs, ih]
    change match s.roleAt n with | .pay k o => _ | _ => _ at h
    generalize s.roleAt n = r at h ⊢
    cases r <;> simp_all [Role.isPay]

/-- The invariants do not speak of CSACC, the response output or the ports. -/
theorem StateInv.congr {s : State} (h : StateInv s) (v : Residue) (r : Option Response) (ws : List CmdWord) (bs : List Byte)
    (cs : List Cycle) : StateInv { s with csacc := v, rsp := r, cmds := ws, stream := bs, cycles := cs } where
  params := h.params
  idleClear := h.idleClear
  operands := h.operands
  shape := h.shape
  position := h.position
  payload := h.payload
  faultCount := h.faultCount
  faults := h.faults
  errorKind := h.errorKind
  rawWf := h.rawWf
  rawInside := h.rawInside
  rawWritten := h.rawWritten

/-- The response output is not spoken of. -/
theorem StateInv.withRsp {s : State} (h : StateInv s) (r : Option Response) : StateInv (s.withRsp r) :=
  h.congr s.csacc r s.cmds s.stream s.cycles

/-- CSACC is not spoken of. -/
theorem StateInv.withCsacc {s : State} (h : StateInv s) (v : Residue) : StateInv (s.withCsacc v) :=
  h.congr v s.rsp s.cmds s.stream s.cycles

/-- The ports are not spoken of. -/
theorem StateInv.withPorts {s : State} (h : StateInv s) (ws : List CmdWord) (bs : List Byte) (cs : List Cycle) :
    StateInv (s.withPorts ws bs cs) :=
  h.congr s.csacc s.rsp ws bs cs

/-- The byte count is the partition's sum (R27). -/
theorem StateInv.byteCount_eq {s : State} (h : StateInv s) (hp : s.status.ph ≠ .idle) :
    s.byteCount.toNat = 64 * s.fullBlocks.toNat + s.remainder.toNat ∧ s.remainder.toNat < 64 := by
  obtain ⟨-, -, hf, hr, -⟩ := h.shape hp
  omega

/-- L fits 32 bits (R22, R6), so POS never wraps. -/
theorem StateInv.streamLen_lt {s : State} (h : StateInv s) (hp : s.status.ph ≠ .idle) : s.streamLen < 2 ^ 32 := by
  obtain ⟨-, -, hf, hr, hb⟩ := h.shape hp
  have := h.params.2
  simp only at this
  unfold State.streamLen streamLength blockSpan blockLen
  omega

/-- At `PAY(k, o)` the write pointer is `64k + o`, inside BYTE_COUNT (R97, R44). -/
theorem StateInv.wp_of_pay {s : State} (h : StateInv s) (hp : s.status.ph ≠ .idle) {k o : Nat}
    (hr : s.roleAt s.pos.toNat = .pay k o) : s.wp.toNat = 64 * k + o ∧ s.wp.toNat < s.byteCount.toNat := by
  have hw := (h.payload hp).1
  rw [payCount_eq] at hw
  have hs := payBelow_succ s.hdrLen.toNat s.fullBlocks.toNat s.remainder.toNat s.pos.toNat
  change match s.roleAt s.pos.toNat with | .pay k o => _ | _ => _ at hs
  rw [hr] at hs
  have hle := payBelow_le s.hdrLen.toNat s.fullBlocks.toNat s.remainder.toNat (s.pos.toNat + 1)
  have := (h.byteCount_eq hp).1
  exact ⟨by omega, by omega⟩

/-- A checksum byte's position is its block's, and its index is at most FULL_BLOCKS (R97). -/
theorem sumPosition_of_role {s : State} {i k : Nat} (hr : s.roleAt i = .sum k) :
    k ≤ s.fullBlocks.toNat ∧ sumPosition s k = i := by
  have h := role_cases s.hdrLen.toNat s.fullBlocks.toNat s.remainder.toNat i
  change role s.hdrLen.toNat s.fullBlocks.toNat s.remainder.toNat i = _ at hr
  simp only [hr] at h
  unfold sumPosition
  rcases h with ⟨_, h⟩ | ⟨_, _, _, _, _, h⟩ | ⟨j, hj, hi, h⟩ | ⟨_, _, _, h⟩ | ⟨_, _, _, h⟩ | ⟨hi, h⟩ | ⟨_, h⟩
  · exact absurd h (by simp)
  · exact absurd h (by simp)
  · obtain rfl := Role.sum.inj h
    exact ⟨by omega, by rw [if_pos hj]; omega⟩
  · exact absurd h (by simp)
  · exact absurd h (by simp)
  · obtain rfl := Role.sum.inj h
    exact ⟨le_refl _, by rw [if_neg (by omega)]; omega⟩
  · exact absurd h (by simp)

end Sys2Proof.Machine
end

