-- ==== Sys2Proof/Laws/PerInstr.lean ====
section
/-! SUPPORT. What the encoder writes into each field of the command word, operation by operation (30_encoding.md R55,
R56, R58): the statement about an operation is about it as syntax, not about what it does. -/

namespace Sys2Proof.Laws.EncodedFields

/-- The five fields of the command word, with the reserved bits 89:76 zero (R55). -/
def FieldsAre (w : CmdWord) (op : BitVec 4) (wsel : BitVec 2) (c : BitVec 12) (a b : Word) : Prop :=
  opField w = op ∧ wselField w = wsel ∧ cField w = c ∧ aField w = a ∧ bField w = b ∧ w.extractLsb' 76 14 = 0

/-- R58's operation code and R56's operand fields of an operation's word; a field that R56 marks "—" is 0 (log 11). -/
def Statement (i : Instr) : Prop :=
  match i with
  | .enc wsel value => FieldsAre (encode i) 0x1 wsel 0 value 0
  | .dec wsel field => FieldsAre (encode i) 0x2 wsel 0 field 0
  | .csclr => FieldsAre (encode i) 0x3 0 0 0 0
  | .csadd byte => FieldsAre (encode i) 0x4 0 0 (byte.setWidth 32) 0
  | .csget => FieldsAre (encode i) 0x5 0 0 0 0
  | .csvfy claimed => FieldsAre (encode i) 0x6 0 0 (claimed.setWidth 32) 0
  | .classify s0 s1 => FieldsAre (encode i) 0x7 0 0 ((s0 ++ s1).setWidth 32) 0
  | .rdstart wsel cluster first last => FieldsAre (encode i) 0x8 wsel cluster first last
  | .rdreg number => FieldsAre (encode i) 0x9 0 number 0 0
  | .rdsamp index => FieldsAre (encode i) 0xA 0 0 index 0
  | .rdraw addr => FieldsAre (encode i) 0xB 0 0 addr 0
  | .rdflt block => FieldsAre (encode i) 0xC 0 0 block 0

/-- Bits 89:76. -/
theorem reservedField_commandWord (op : BitVec 4) (wsel : BitVec 2) (c : BitVec 12) (a b : Word) :
    (commandWord op wsel c a b).extractLsb' 76 14 = 0 := by
  unfold commandWord
  ext i hi
  simp only [BitVec.getElem_extractLsb', BitVec.getLsbD_append]
  grind

/-- A word put together from its fields has them. -/
theorem fieldsAre_commandWord (op : BitVec 4) (wsel : BitVec 2) (c : BitVec 12) (a b : Word) :
    FieldsAre (commandWord op wsel c a b) op wsel c a b :=
  ⟨opField_commandWord .., wselField_commandWord .., cField_commandWord .., aField_commandWord ..,
    bField_commandWord .., reservedField_commandWord ..⟩

theorem enc (wsel : BitVec 2) (value : Word) : Statement (.enc wsel value) := fieldsAre_commandWord ..

theorem dec (wsel : BitVec 2) (field : Word) : Statement (.dec wsel field) := fieldsAre_commandWord ..

theorem csclr : Statement .csclr := fieldsAre_commandWord ..

theorem csadd (byte : Byte) : Statement (.csadd byte) := fieldsAre_commandWord ..

theorem csget : Statement .csget := fieldsAre_commandWord ..

theorem csvfy (claimed : Byte) : Statement (.csvfy claimed) := fieldsAre_commandWord ..

theorem classify (s0 s1 : Byte) : Statement (.classify s0 s1) := fieldsAre_commandWord ..

theorem rdstart (wsel : BitVec 2) (cluster : BitVec 12) (first last : Word) :
    Statement (.rdstart wsel cluster first last) := fieldsAre_commandWord ..

theorem rdreg (number : BitVec 12) : Statement (.rdreg number) := fieldsAre_commandWord ..

theorem rdsamp (index : Word) : Statement (.rdsamp index) := fieldsAre_commandWord ..

theorem rdraw (addr : Word) : Statement (.rdraw addr) := fieldsAre_commandWord ..

theorem rdflt (block : Word) : Statement (.rdflt block) := fieldsAre_commandWord ..

end Sys2Proof.Laws.EncodedFields
end

