-- ==== Sys2Proof/Tests/Slice0.lean ====
section
/-! SUPPORT. Tests of single steps against 95_test_vectors.md, and for every obligation that has hypotheses a concrete
state and operands that meet all of them together. -/

namespace Sys2Proof.Tests

open Sys2Proof Sys2Proof.Machine

/-! ## Well-formed operations (30_encoding.md R59) -/

theorem test_wf_enc : (Instr.enc 3 0).wellFormed = false ∧ (Instr.enc 2 0xFFFFFFFF).wellFormed = true := by decide

theorem test_wf_dec : (Instr.dec 3 0).wellFormed = false ∧ (Instr.dec 2 0xFFFFFFFF).wellFormed = true := by decide

theorem test_wf_rdstart : (Instr.rdstart 2 1 0 1).wellFormed = false ∧ (Instr.rdstart 3 1 0 1).wellFormed = false ∧
    (Instr.rdstart 1 0 1 0).wellFormed = true := by decide

/-- Every other operation is legal at every operand. -/
theorem test_wf_others : [Instr.csclr, .csadd 0xFF, .csget, .csvfy 0xFF, .classify 0xFF 0xFF, .rdreg 0xFFF,
    .rdsamp 0xFFFFFFFF, .rdraw 0xFFFFFFFF, .rdflt 0xFFFFFFFF].all Instr.wellFormed = true := by decide

/-! ## Decoding: words written out in 95_test_vectors.md -/

/-- The decoder's answer, comparable. -/
def read (w : CmdWord) : Option Instr := (decode w).toOption

/-- Section 2.1, `ENC.3 5432`, and the same with every ignored bit set. -/
theorem test_decode_enc : read 0x14000000_00001538_00000000 = some (.enc 1 5432) ∧
    read 0x17FFFABC_00001538_DEADBEEF = some (.enc 1 5432) := by decide

/-- Section 2.1, `DEC.3 "1Dh"`. -/
theorem test_decode_dec : read 0x24000000_00314468_00000000 = some (.dec 1 0x00314468) := by decide

/-- Section 2.2. -/
theorem test_decode_csclr : read 0x30000000_00000000_00000000 = some .csclr := by decide

/-- Section 2.2: `a[31:8]` is ignored. -/
theorem test_decode_csadd : read 0x40000000_FFFFFF30_00000000 = some (.csadd 0x30) := by decide

/-- Section 2.2. -/
theorem test_decode_csget : read 0x50000000_00000000_00000000 = some .csget := by decide

/-- Section 2.2: `CSVFY 0x160` compares with 0x60. -/
theorem test_decode_csvfy : read 0x60000000_00000160_00000000 = some (.csvfy 0x60) := by decide

/-- Section 2.3: "MD" with every ignored field set. -/
theorem test_decode_classify : read 0x7C000FFF_FFFF4D44_12345678 = some (.classify 0x4D 0x44) := by decide

/-- Section 2.4, `RDSTART.3 44, 725, 1`. -/
theorem test_decode_rdstart : read 0x84000001_0000002C_000002D5 = some (.rdstart 1 1 44 725) := by decide

/-- Program P2, step 16. -/
theorem test_decode_rdreg : read 0x9000000A_00000000_00000000 = some (.rdreg 10) := by decide

/-- Program P3, step 17. -/
theorem test_decode_rdsamp : read 0xA0000000_00000015_00000000 = some (.rdsamp 21) := by decide

/-- Program P3, step 22. -/
theorem test_decode_rdraw : read 0xB0000000_0000006E_00000000 = some (.rdraw 110) := by decide

/-- Program P3, step 26. -/
theorem test_decode_rdflt : read 0xC0000000_00000002_00000000 = some (.rdflt 2) := by decide

/-- Sections 2.1 and 2.5: reserved codes and illegal width selects are refused by name. -/
theorem test_decode_refused :
    decode 0x00000000_00000000_00000000 = .error (.reservedOp 0x0) ∧
    decode 0xD0000000_00000001_00000002 = .error (.reservedOp 0xD) ∧
    decode 0xE0000000_00000000_00000000 = .error (.reservedOp 0xE) ∧
    decode 0xFC000FFF_FFFFFFFF_FFFFFFFF = .error (.reservedOp 0xF) ∧
    decode 0x1C000000_00000000_00000000 = .error (.illegalWidth 3) ∧
    decode 0x2C000000_00003030_00000000 = .error (.illegalWidth 3) ∧
    decode 0x88000001_00000000_00000001 = .error (.illegalWidth 2) ∧
    decode 0x8C000000_00000005_00000005 = .error (.illegalWidth 3) := by decide

/-- The operation table's numbering: bit 0 of the number is bit 0 of the word. -/
theorem test_decodeTableWord : decodeTableWord 96 0x84000001_0000002C_000002D5 = some (.rdstart 1 1 44 725) ∧
    decodeTableWord 96 0 = none := by decide

/-! ## Small states -/

/-- An instance with `HDR_LEN` = 0 and `RAW_DEPTH` = 128, after reset. -/
def idle : State := State.resetOf ⟨0, 128⟩

/-- The bytes of program P2's payload. -/
def payloadP2 : List Byte := [0x30, 0x30, 0x30, 0x31, 0x30, 0x32, 0x30, 0x33, 0x30, 0x34]

/-- Program P2 with `HDR_LEN` = 0, after step 1, with the first `n ≤ 10` payload bytes consumed and RD_ACC = `acc`. -/
def readP2 (n : Nat) (acc : Residue) : State :=
  { idle with
    status := ⟨.active, .noError, false, false⟩
    startStep := 10
    endStep := 19
    cluster := 2
    sampleCount := 5
    byteCount := 10
    remainder := 10
    pos := BitVec.ofNat 32 n
    wp := BitVec.ofNat 32 n
    rdAcc := acc
    raw := (List.range n).zip payloadP2 }

/-- Program P2 before its last byte: POS = L - 1 = 12. -/
def lastByteP2 : State := { readP2 10 0 with pos := 12 }

/-- Program P2 at its end. -/
def doneP2 : State := { readP2 10 0 with pos := 13, status := ⟨.done, .noError, false, false⟩ }

/-- Program P4, steps 2 and 3, in small: program P2 failed with Timeout after 5 bytes. -/
def failedP2 : State := { readP2 5 49 with status := ⟨.ioerr, .timeout, false, false⟩ }

/-- Program P7 with `HDR_LEN` = 6 at stream position `n`: HDR 0 to 5, SUM(0) 6, TERM 7 and 8, L = 9. -/
def emptyRead (n : Nat) : State :=
  { State.resetOf ⟨6, 128⟩ with
    status := ⟨.active, .noError, false, false⟩, endStep := 1, cluster := 3, pos := BitVec.ofNat 32 n }

/-- Program P7 at its end, its checksum byte having differed: FAULT[0] = 1. -/
def doneFaulted : State :=
  { emptyRead 9 with status := ⟨.done, .noError, true, false⟩, faults := [0], faultCount := 1 }

/-- The response of an outcome, if it has one. -/
def response : StepResult → Option Response
  | .next t => t.rsp
  | _ => none

/-- The state of an outcome, if it is a next state. -/
def after : StepResult → Option State
  | .next t => some t
  | _ => none

/-- The cycle in which the transport presents a byte and the host a command. -/
def both (hostFirst : Bool) : Cycle := ⟨false, true, true, none, hostFirst⟩

/-- The cycle in which only the transport acts. -/
def rxCycle (fail : Option (BitVec 2)) : Cycle := ⟨false, false, true, fail, false⟩

/-- A cycle with `rst` high and everything else going on. -/
def rstCycle : Cycle := ⟨true, true, true, some 2, true⟩

/-! ### They satisfy the invariants -/

theorem inv_idle : StateInv idle := by constructor <;> decide

theorem inv_readP2_0 : StateInv (readP2 0 0) := by constructor <;> decide

theorem inv_readP2_9 : StateInv (readP2 9 54) := by constructor <;> decide

theorem inv_readP2_10 : StateInv (readP2 10 42) := by constructor <;> decide

theorem inv_doneP2 : StateInv doneP2 := by constructor <;> decide

theorem inv_failedP2 : StateInv failedP2 := by constructor <;> decide

theorem inv_emptyRead_0 : StateInv (emptyRead 0) := by constructor <;> decide

theorem inv_emptyRead_5 : StateInv (emptyRead 5) := by constructor <;> decide

theorem inv_emptyRead_6 : StateInv (emptyRead 6) := by constructor <;> decide

theorem inv_emptyRead_7 : StateInv (emptyRead 7) := by constructor <;> decide

theorem inv_emptyRead_8 : StateInv (emptyRead 8) := by constructor <;> decide

theorem inv_doneFaulted : StateInv doneFaulted := by constructor <;> decide

/-! ## One step of each operation, with 95_test_vectors.md's answers -/

/-- Section 2.1: the width-3 example, the largest value of width 4, and the first one refused. -/
theorem test_enc : response (runCommand 0x14000000_00001538_00000000 idle) = some ⟨.ok, 0x00314468⟩ ∧
    response (runCommand 0x18000000_00FFFFFF_00000000 idle) = some ⟨.ok, 0x6F6F6F6F⟩ ∧
    response (runCommand 0x18000000_01000000_00000000 idle) = some ⟨.errRange, 0⟩ := by decide

/-- Section 2.1: `wsel` = 3 is checked before the range. -/
theorem test_enc_illop : response (runCommand 0x1C000000_FFFFFFFF_00000000 idle) = some ⟨.errIllop, 0⟩ := by decide

/-- Section 2.1: most significant character first; bytes above the width ignored. -/
theorem test_dec : response (runCommand 0x20000000_00004342_00000000 idle) = some ⟨.ok, 1234⟩ ∧
    response (runCommand 0x20000000_FFFF3030_00000000 idle) = some ⟨.ok, 0⟩ := by decide

/-- Section 2.1, outside the alphabet. -/
theorem test_dec_outside : response (runCommand 0x20000000_00002F30_00000000 idle) = some ⟨.ok, 4032⟩ ∧
    response (runCommand 0x28000000_FFFFFFFF_00000000 idle) = some ⟨.ok, 3994575⟩ := by decide

/-- Section 2.2: a span is cleared. -/
theorem test_csclr : runCommand 0x30000000_00000000_00000000 { idle with csacc := 29 } =
    .next { idle with rsp := some ⟨.ok, 0⟩ } := rfl

/-- Program P1, step 4: (49 + 68) mod 64 = 53. -/
theorem test_csadd : (after (runCommand 0x40000000_00000044_00000000 { idle with csacc := 49 })).map State.csacc =
    some 53 := by decide

/-- Section 2.2: the checksum of "00" is "P". -/
theorem test_csget : response (runCommand 0x50000000_00000000_00000000 { idle with csacc := 32 }) = some ⟨.ok, 0x50⟩ := by
  decide

/-- Section 2.2, the span "0": 0x60 verifies, 0x20 does not, since all 8 bits are compared. -/
theorem test_csvfy : response (runCommand 0x60000000_00000060_00000000 { idle with csacc := 48 }) = some ⟨.ok, 1⟩ ∧
    response (runCommand 0x60000000_00000020_00000000 { idle with csacc := 48 }) = some ⟨.ok, 0⟩ := by decide

/-- Section 2.3: the first, the ninth and the last symbol, a reversed one and a lower-case one. -/
theorem test_classify : response (runCommand 0x70000000_00004D44_00000000 idle) = some ⟨.ok, 0⟩ ∧
    response (runCommand 0x70000000_00005353_00000000 idle) = some ⟨.ok, 8⟩ ∧
    response (runCommand 0x70000000_00004949_00000000 idle) = some ⟨.ok, 14⟩ ∧
    response (runCommand 0x70000000_0000444D_00000000 idle) = some ⟨.ok, 15⟩ ∧
    response (runCommand 0x70000000_00004D64_00000000 idle) = some ⟨.ok, 15⟩ := by decide

/-- Section 2.5, the refusals of RDSTART in their order, and the largest read accepted at `RAW_DEPTH` = 128. -/
theorem test_rdstart_refused : response (runCommand 0x8C000000_00000005_00000005 idle) = some ⟨.errIllop, 0⟩ ∧
    response (runCommand 0x80000000_00000000_0000000A (readP2 0 0)) = some ⟨.errBusy, 0⟩ ∧
    response (runCommand 0x80000001_0000000A_0000000A idle) = some ⟨.errParam, 0⟩ ∧
    response (runCommand 0x80000000_00000000_FFFFFFFF idle) = some ⟨.errParam, 0⟩ ∧
    response (runCommand 0x80000001_00000000_FFFFFFFF idle) = some ⟨.errRange, 0⟩ ∧
    response (runCommand 0x80000001_00000000_00000040 idle) = some ⟨.errRange, 0⟩ ∧
    response (runCommand 0x80000001_00000000_0000003F idle) = some ⟨.ok, 0⟩ := by decide

/-- Program P2, step 1. -/
theorem test_rdstart : runCommand 0x80000002_0000000A_00000013 idle =
    .next { readP2 0 0 with rsp := some ⟨.ok, 0⟩ } := rfl

/-- Section 2.5 and program P2, step 15. -/
theorem test_rdreg : response (runCommand 0x9000000C_00000000_00000000 idle) = some ⟨.ok, 0x80⟩ ∧
    response (runCommand 0x90000008_00000000_00000000 doneP2) = some ⟨.ok, 13⟩ ∧
    response (runCommand 0x9000000D_00000000_00000000 idle) = some ⟨.errRange, 0⟩ := by decide

/-- Program P4, step 4, at width 2: PH = 3, IOK = 2; section 2.6: PH = 2 with ANYF. -/
theorem test_rdreg_status : response (runCommand 0x90000000_00000000_00000000 failedP2) = some ⟨.ok, 0x0B⟩ ∧
    response (runCommand 0x90000000_00000000_00000000 doneFaulted) = some ⟨.ok, 0x12⟩ := by decide

/-- Program P2, steps 6, 17, 18. -/
theorem test_rdsamp : response (runCommand 0xA0000000_00000003_00000000 doneP2) = some ⟨.ok, 3⟩ ∧
    response (runCommand 0xA0000000_00000005_00000000 doneP2) = some ⟨.errRange, 0⟩ ∧
    response (runCommand 0xA0000000_FFFFFFFF_00000000 (readP2 0 0)) = some ⟨.errState, 0⟩ := by decide

/-- Program P2, steps 19 and 20; program P4, step 8. -/
theorem test_rdraw : response (runCommand 0xB0000000_00000009_00000000 doneP2) = some ⟨.ok, 0x34⟩ ∧
    response (runCommand 0xB0000000_0000000A_00000000 doneP2) = some ⟨.errRange, 0⟩ ∧
    response (runCommand 0xB0000000_00000000_00000000 failedP2) = some ⟨.errState, 0⟩ := by decide

/-- Program P2, steps 21 and 22; section 2.6: a faulted block; section 2.5: refused in IDLE. -/
theorem test_rdflt : response (runCommand 0xC0000000_00000000_00000000 doneP2) = some ⟨.ok, 0⟩ ∧
    response (runCommand 0xC0000000_00000001_00000000 doneP2) = some ⟨.errRange, 0⟩ ∧
    response (runCommand 0xC0000000_00000000_00000000 doneFaulted) = some ⟨.ok, 1⟩ ∧
    response (runCommand 0xC0000000_00000000_00000000 idle) = some ⟨.errState, 0⟩ := by decide

/-- R57, R60: ERR_RANGE with result 0, as a 36-bit word. -/
theorem test_response_word : Response.word ⟨.errRange, 0⟩ = 0x200000000 ∧
    Response.word ⟨.ok, 0x314468⟩ = 0x000314468 := by decide

/-! ## One step of the stream, with section 2.6's answers -/

/-- Section 2.6, the shape of `RDSTART.3 0, 36, 1` with `HDR_LEN` = 6: every role at its first and last position. -/
theorem test_role : role 6 1 47 0 = .hdr ∧ role 6 1 47 5 = .hdr ∧ role 6 1 47 6 = .pay 0 0 ∧ role 6 1 47 69 = .pay 0 63 ∧
    role 6 1 47 70 = .sum 0 ∧ role 6 1 47 71 = .term ∧ role 6 1 47 72 = .pay 1 0 ∧ role 6 1 47 118 = .pay 1 46 ∧
    role 6 1 47 119 = .sum 1 ∧ role 6 1 47 120 = .term ∧ role 6 1 47 121 = .term ∧ streamLength 6 1 47 = 122 := by decide

/-- Section 2.6, the shape of `RDSTART.2 0, 31, 1`: remainder 0. -/
theorem test_role_empty_tail : role 0 1 0 63 = .pay 0 63 ∧ role 0 1 0 64 = .sum 0 ∧ role 0 1 0 65 = .term ∧
    role 0 1 0 66 = .sum 1 ∧ role 0 1 0 67 = .term ∧ role 0 1 0 68 = .term ∧ streamLength 0 1 0 = 69 := by decide

/-- Program P2, the last payload byte: RAW[9] = 0x34, WP = 10, RD_ACC = 42. -/
theorem test_rx_pay : rxStep 0x34 (readP2 9 54) = .next (readP2 10 42) := rfl

/-- Program P2, step 11: 0x5A is the checksum byte; 0x1A, equal to it modulo 64, is not. -/
theorem test_rx_sum : rxStep 0x5A (readP2 10 42) = .next { readP2 10 0 with pos := 11 } ∧
    rxStep 0x1A (readP2 10 42) = .next { readP2 10 0 with
      pos := 11, faults := [0], faultCount := 1, status := ⟨.active, .noError, true, false⟩ } := ⟨rfl, rfl⟩

/-- Program P2, step 13: whatever the last terminator is, the read is DONE. -/
theorem test_rx_last : rxStep 0x58 lastByteP2 = .next doneP2 := rfl

/-- Section 2.6: a time-out while ACTIVE, and a failure in any other phase; R35: kind 0 counts as ShortRead. -/
theorem test_rxFail : rxFailStep 2 (readP2 5 49) = failedP2 ∧ rxFailStep 3 doneP2 = doneP2 ∧
    (rxFailStep 0 (readP2 5 49)).status.iok = .shortRead := by decide

/-- Section 2.7: the host's step first. -/
theorem test_both_host_first : response (step (lastByteP2.withPorts [0xA0000000_00000000_00000000] [0x0A] [both true])) =
    some ⟨.errState, 0⟩ := by decide

/-- Section 2.7: the transport's step first; the host's is still to come, and finds the read DONE. -/
theorem test_both_transport_first :
    step (lastByteP2.withPorts [0xA0000000_00000000_00000000] [0x0A] [both false]) =
      .next (doneP2.withPorts [0xA0000000_00000000_00000000] [] [(both false).withoutRx]) := rfl

/-- Section 2.8: reset from mid-read; the byte not yet consumed stays with the transport, the command is dropped. -/
theorem test_reset : (after (step ((readP2 5 49).withPorts [1] [0x32] [rstCycle]))).map (fun t =>
    (t.status, t.pos, t.wp, t.sampleCount, t.rdAcc, t.stream, t.cmds)) =
      some (⟨.idle, .noError, false, false⟩, 0, 0, 0, 0, [0x32], []) := rfl

/-! ## Witnesses: for each obligation with hypotheses, states and operands that meet all of them together

A statement that is a chain of conditions has one witness for each of its cases. -/

/-- DecodeOfEncodeIsTheInstruction. -/
theorem witness_decodeOfEncode : (Instr.enc 2 0xFFFFFFFF).WellFormed ∧ (Instr.rdstart 1 0xFFF 0 0xFFFFFFFF).WellFormed :=
  ⟨rfl, rfl⟩

/-- IgnoredBitsChangeNothing: section 2.1's word with every ignored bit set beside the plain one; a reserved code. -/
theorem witness_ignoredBits : decode 0x14000000_00001538_00000000 = .ok (.enc 1 5432) ∧
    (0x17FFFABC_00001538_DEADBEEF : CmdWord) &&& usedMask (.enc 1 5432) =
      0x14000000_00001538_00000000 &&& usedMask (.enc 1 5432) ∧
    decode 0xD0000000_00000001_00000002 = .error (.reservedOp 0xD) ∧
    opField 0xD3FFFFFF_FFFFFFFF_FFFFFFFF = opField 0xD0000000_00000001_00000002 ∧
    wselField 0xD3FFFFFF_FFFFFFFF_FFFFFFFF = wselField 0xD0000000_00000001_00000002 := by decide

/-- EveryWordSelectsOrIsRefused: on either side of each of its conditions. -/
theorem witness_everyWord :
    opField 0 = 0x0 ∧ opField 0xDFFFFFFF_FFFFFFFF_FFFFFFFF = 0xD ∧ opField 0xE0000000_00000000_00000000 = 0xE ∧
    opField 0xF0000000_00000000_00000000 = 0xF ∧
    (opField 0x1C000000_00000000_00000000 = 0x1 ∧ wselField 0x1C000000_00000000_00000000 = 3) ∧
    (opField 0x2C000000_00000000_00000000 = 0x2 ∧ wselField 0x2C000000_00000000_00000000 = 3) ∧
    (opField 0x88000000_00000000_00000000 = 0x8 ∧ 2 ≤ (wselField 0x88000000_00000000_00000000).toNat) ∧
    (opField 0x18000000_00000000_00000000 = 0x1 ∧ wselField 0x18000000_00000000_00000000 ≠ 3) ∧
    (opField 0x84000000_00000000_00000000 = 0x8 ∧ ¬2 ≤ (wselField 0x84000000_00000000_00000000).toNat) ∧
    opField 0xC0000000_00000000_00000000 = 0xC := by decide

/-- Program P2's first byte and CSGET in one cycle. -/
def bothPorts (c : Cycle) : State := (readP2 0 0).withPorts [0x50000000_00000000_00000000] [0x30] [c]

/-- StepRunsThePresentedCommand: a command alone, and a command before a byte. -/
theorem witness_stepRuns :
    ((idle.presenting 0x50000000_00000000_00000000).cycles = [Cycle.command] ∧ Cycle.command.rst = false ∧
      Cycle.command.cmdValid = true ∧
      (idle.presenting 0x50000000_00000000_00000000).cmds = [0x50000000_00000000_00000000] ∧
      decode 0x50000000_00000000_00000000 = .ok .csget ∧
      transportEvent Cycle.command (idle.presenting 0x50000000_00000000_00000000) = none) ∧
    ((bothPorts (both true)).cycles = [both true] ∧ (both true).rst = false ∧ (both true).cmdValid = true ∧
      (bothPorts (both true)).cmds = [0x50000000_00000000_00000000] ∧
      transportEvent (both true) (bothPorts (both true)) ≠ none ∧ (both true).hostFirst = true) := by
  decide

/-- StepTakesTheTransportEvent: a failure, a byte while ACTIVE, a byte that stays with the transport. -/
theorem witness_stepTakes :
    (((readP2 0 0).withPorts [] [0x30] [rxCycle (some 2)]).cycles = [rxCycle (some 2)] ∧ (rxCycle (some 2)).rst = false ∧
      (rxCycle (some 2)).cmdValid = false ∧ (rxCycle (some 2)).rxFail = some 2) ∧
    (((readP2 0 0).withPorts [] [0x30] [rxCycle none]).cycles = [rxCycle none] ∧ (rxCycle none).rst = false ∧
      (rxCycle none).cmdValid = false ∧ (rxCycle none).rxFail = none ∧ (rxCycle none).rxValid = true ∧
      ((readP2 0 0).withPorts [] [0x30] [rxCycle none]).stream = [0x30] ∧
      ((readP2 0 0).withPorts [] [0x30] [rxCycle none]).status.ph = .active) ∧
    ((doneP2.withPorts [] [0x30] [both true]).cycles = [both true] ∧ (both true).rst = false ∧
      (doneP2.withPorts [] [0x30] [both true]).cmds = [] ∧ (both true).rxFail = none ∧
      (doneP2.withPorts [] [0x30] [both true]).status.ph ≠ .active) := by
  decide

/-- WaitingKeepsTheState. -/
theorem witness_waiting : (readP2 5 49).cycles = [] := rfl

/-- TransportFirstLeavesTheCommand: a byte, and a failure, chosen before a command. -/
theorem witness_transportFirst :
    ((bothPorts (both false)).cycles = [both false] ∧ (both false).rst = false ∧ (both false).cmdValid = true ∧
      (bothPorts (both false)).cmds = [0x50000000_00000000_00000000] ∧ (both false).hostFirst = false ∧
      (both false).rxFail = none ∧ (both false).rxValid = true ∧ (bothPorts (both false)).stream = [0x30] ∧
      (bothPorts (both false)).status.ph = .active) ∧
    ((bothPorts ⟨false, true, true, some 1, false⟩).cycles = [⟨false, true, true, some 1, false⟩] ∧
      (bothPorts ⟨false, true, true, some 1, false⟩).cmds = [0x50000000_00000000_00000000]) := by decide

/-- ResetLeavesTheResetTable: from mid-read, with everything else going on in the cycle. -/
theorem witness_reset : ((readP2 5 49).withPorts [1] [0x32] [rstCycle]).cycles = [rstCycle] ∧ rstCycle.rst = true :=
  ⟨rfl, rfl⟩

/-- EncAnswersByItsRule: each case of the chain at its boundary, width 2 and width 4. -/
theorem witness_enc : (3 : BitVec 2) = 3 ∧ (0 : BitVec 2) ≠ 3 ∧
    64 ^ ((0 : BitVec 2).toNat + 2) ≤ (4096 : Word).toNat ∧ ¬64 ^ ((0 : BitVec 2).toNat + 2) ≤ (4095 : Word).toNat ∧
    64 ^ ((2 : BitVec 2).toNat + 2) ≤ (16777216 : Word).toNat ∧
    ¬64 ^ ((2 : BitVec 2).toNat + 2) ≤ (16777215 : Word).toNat := by decide

/-- DecAfterEncIsTheValue: the largest value of the largest width. -/
theorem witness_decAfterEnc : (2 : BitVec 2) ≠ 3 ∧ (16777215 : Word).toNat < 64 ^ ((2 : BitVec 2).toNat + 2) := by decide

/-- CodecLaws: a width and a value, two fields of equal length inside the alphabet, at its two ends. -/
theorem witness_codecLaws : 4 ∈ [2, 3, 4] ∧ 16777215 < 64 ^ 4 ∧ ([0x30, 0x6F] : List Byte).length ∈ [2, 3, 4] ∧
    inAlphabet [0x30, 0x6F] = true ∧ inAlphabet [0x6F, 0x30] = true ∧
    ([0x30, 0x6F] : List Byte).length = ([0x6F, 0x30] : List Byte).length := by decide

/-- SpanComputesTheChecksum. -/
theorem witness_span : idle.csacc = 0 := rfl

/-- ChecksumLaws, law 4: section 2.2's permutation. -/
theorem witness_checksumLaws : List.Perm ([0x30, 0x31] : List Byte) [0x31, 0x30] := by decide

/-- KnownKindsHaveOneSymbol. -/
theorem witness_knownKinds : classifySymbol 0x49 0x49 ≠ .unknown ∧
    classifySymbol 0x49 0x49 = classifySymbol 0x49 0x49 := by decide

/-- RdstartFollowsItsRule: each case of the chain, ERR_RANGE and acceptance at 130 and 128 bytes of 128. -/
theorem witness_rdstart : 2 ≤ (2 : BitVec 2).toNat ∧ ¬2 ≤ (1 : BitVec 2).toNat ∧ (readP2 0 0).status.ph = .active ∧
    idle.status.ph ≠ .active ∧ ((0 : BitVec 12) = 0) ∧ (10 : Word).toNat ≤ (10 : Word).toNat ∧
    ¬((1 : BitVec 12) = 0 ∨ (64 : Word).toNat ≤ (0 : Word).toNat) ∧
    idle.rawDepth.toNat < ((64 : Word).toNat - (0 : Word).toNat + 1) / (1 : BitVec 12).toNat * ((0 : BitVec 2).toNat + 2) ∧
    ¬idle.rawDepth.toNat < ((63 : Word).toNat - (0 : Word).toNat + 1) / (1 : BitVec 12).toNat * ((0 : BitVec 2).toNat + 2) := by
  decide

/-- RdregAnswersTheCsr: numbers 12 and 13. -/
theorem witness_rdreg : ¬12 < (12 : BitVec 12).toNat ∧ 12 < (13 : BitVec 12).toNat := by decide

/-- RdsampFollowsItsRule: outside DONE, the first index refused, the last one answered. -/
theorem witness_rdsamp : (readP2 0 0).status.ph ≠ .done ∧ doneP2.status.ph = .done ∧
    doneP2.sampleCount.toNat ≤ (5 : Word).toNat ∧ ¬doneP2.sampleCount.toNat ≤ (4 : Word).toNat ∧ StateInv doneP2 :=
  ⟨by decide, by decide, by decide, by decide, inv_doneP2⟩

/-- RdrawFollowsItsRule: outside DONE, the first address refused, the last one answered. -/
theorem witness_rdraw : failedP2.status.ph ≠ .done ∧ doneP2.status.ph = .done ∧
    doneP2.byteCount.toNat ≤ (10 : Word).toNat ∧ ¬doneP2.byteCount.toNat ≤ (9 : Word).toNat ∧ StateInv doneP2 :=
  ⟨by decide, by decide, by decide, by decide, inv_doneP2⟩

/-- RdfltFollowsItsRule: outside DONE, the first index refused, the last one answered, with and without a fault. -/
theorem witness_rdflt : idle.status.ph ≠ .done ∧ doneFaulted.fullBlocks.toNat < (1 : Word).toNat ∧
    ¬doneFaulted.fullBlocks.toNat < (0 : Word).toNat ∧ (0 : Word).toNat ∈ doneFaulted.faults ∧
    (0 : Word).toNat ∉ doneP2.faults ∧ StateInv doneFaulted ∧ StateInv doneP2 :=
  ⟨by decide, by decide, by decide, by decide, by decide, inv_doneFaulted, inv_doneP2⟩

/-- RefusedCommandsChangeNothing: program P5, step 8. -/
theorem witness_refused : ∃ t, runCommand 0x9000000D_00000000_00000000 doneP2 = .next t ∧
    t.rsp = some ⟨.errRange, 0⟩ ∧ (⟨.errRange, 0⟩ : Response).status ≠ .ok := ⟨_, rfl, rfl, by decide⟩

/-- OneResponsePerCommand, PhaseTransitionsAreTheTable, PosMovesOnlyByRxRdstartReset, ParametersAreConstant: a step of
each kind. -/
theorem witness_steps :
    (∃ t, step (idle.presenting 0x80000002_0000000A_00000013) = .next t ∧
      (nextStep (idle.presenting 0x80000002_0000000A_00000013)).1 = .cmd 0x80000002_0000000A_00000013) ∧
    (∃ t, step ((readP2 9 54).withPorts [] [0x34] [rxCycle none]) = .next t ∧
      (nextStep ((readP2 9 54).withPorts [] [0x34] [rxCycle none])).1 = .rx 0x34) ∧
    (∃ t, step (lastByteP2.withPorts [] [0x0A] [rxCycle none]) = .next t ∧ t.status.ph = .done) ∧
    (∃ t, step ((readP2 9 54).withPorts [] [0x34] [rxCycle (some 2)]) = .next t ∧
      (nextStep ((readP2 9 54).withPorts [] [0x34] [rxCycle (some 2)])).1 = .rxFail 2) ∧
    (∃ t, step (doneP2.withPorts [1] [0x34] [rstCycle]) = .next t ∧
      (nextStep (doneP2.withPorts [1] [0x34] [rstCycle])).1 = .reset) ∧
    (∃ t, step idle = .next t ∧ (nextStep idle).1 = .idle) :=
  ⟨⟨_, rfl, rfl⟩, ⟨_, rfl, rfl⟩, ⟨_, rfl, rfl⟩, ⟨_, rfl, rfl⟩, ⟨_, rfl, rfl⟩, ⟨_, rfl, rfl⟩⟩

/-- HostOperationsKeepTheirFrame: one operation of each shape. -/
theorem witness_frames : (∃ t, exec (.enc 0 4095) doneP2 = .next t) ∧ (∃ t, exec (.csadd 0xFF) doneP2 = .next t) ∧
    (∃ t, exec (.rdstart 0 2 10 19) doneP2 = .next t) ∧ (∃ t, exec (.rdsamp 4) doneP2 = .next t) :=
  ⟨⟨_, rfl⟩, ⟨_, rfl⟩, ⟨_, rfl⟩, ⟨_, rfl⟩⟩

/-- RolesFollowTheLayout: the smallest and the largest remainder, a header, a block. -/
theorem witness_roles : 0 < 64 ∧ 63 < 64 ∧ (5 < 6) ∧ (0 < 1) ∧ (46 < 47) := by decide

/-- RxDiscardsHeaderAndTerminators: the first and last header byte, a terminator, the last byte of a read. -/
theorem witness_rxDiscards :
    (StateInv (emptyRead 0) ∧ (emptyRead 0).status.ph = .active ∧ (emptyRead 0).roleAt (emptyRead 0).pos.toNat = .hdr) ∧
    (StateInv (emptyRead 5) ∧ (emptyRead 5).status.ph = .active ∧ (emptyRead 5).roleAt (emptyRead 5).pos.toNat = .hdr) ∧
    (StateInv (emptyRead 7) ∧ (emptyRead 7).status.ph = .active ∧ (emptyRead 7).roleAt (emptyRead 7).pos.toNat = .term ∧
      (emptyRead 7).pos.toNat + 1 ≠ (emptyRead 7).streamLen) ∧
    (StateInv (emptyRead 8) ∧ (emptyRead 8).status.ph = .active ∧ (emptyRead 8).roleAt (emptyRead 8).pos.toNat = .term ∧
      (emptyRead 8).pos.toNat + 1 = (emptyRead 8).streamLen) :=
  ⟨⟨inv_emptyRead_0, by decide, by decide⟩, ⟨inv_emptyRead_5, by decide, by decide⟩,
    ⟨inv_emptyRead_7, by decide, by decide, by decide⟩, ⟨inv_emptyRead_8, by decide, by decide, by decide⟩⟩

/-- RxStoresPayload: the first and the last payload byte of program P2. -/
theorem witness_rxStores :
    (StateInv (readP2 0 0) ∧ (readP2 0 0).status.ph = .active ∧ (readP2 0 0).roleAt (readP2 0 0).pos.toNat = .pay 0 0) ∧
    (StateInv (readP2 9 54) ∧ (readP2 9 54).status.ph = .active ∧
      (readP2 9 54).roleAt (readP2 9 54).pos.toNat = .pay 0 9) :=
  ⟨⟨inv_readP2_0, by decide, by decide⟩, ⟨inv_readP2_9, by decide, by decide⟩⟩

/-- RxChecksTheSumByte: program P2's checksum byte, matching and not, and the checksum byte of an empty block. -/
theorem witness_rxChecks :
    (StateInv (readP2 10 42) ∧ (readP2 10 42).status.ph = .active ∧ (readP2 10 42).roleAt (readP2 10 42).pos.toNat = .sum 0 ∧
      (0x5A : Byte).toNat = (readP2 10 42).rdAcc.toNat + 0x30 ∧ (0x1A : Byte).toNat ≠ (readP2 10 42).rdAcc.toNat + 0x30) ∧
    (StateInv (emptyRead 6) ∧ (emptyRead 6).status.ph = .active ∧
      (emptyRead 6).roleAt (emptyRead 6).pos.toNat = .sum 0) :=
  ⟨⟨inv_readP2_10, by decide, by decide, by decide, by decide⟩, ⟨inv_emptyRead_6, by decide, by decide⟩⟩

/-- RxFailEndsTheRead: ACTIVE and not. -/
theorem witness_rxFail : (readP2 5 49).status.ph = .active ∧ doneP2.status.ph ≠ .active := by decide

/-- OnlyChecksumOperationsWriteCsacc: program P1, step 3, and a reset. -/
theorem witness_onlyChecksum :
    (∃ t, step (idle.presenting 0x40000000_00000031_00000000) = .next t ∧
      t.csacc ≠ (idle.presenting 0x40000000_00000031_00000000).csacc) ∧
    (∃ t, step ({ idle with csacc := 29 }.withPorts [] [] [rstCycle]) = .next t ∧ t.csacc ≠ 29) :=
  ⟨⟨_, rfl, by decide⟩, ⟨_, rfl, by decide⟩⟩

/-- OnlyRxWritesRaw: a stored byte, and a reset. -/
theorem witness_onlyRxWritesRaw :
    (∃ t, step ((readP2 9 54).withPorts [] [0x34] [rxCycle none]) = .next t ∧
      rawGet t.raw 9 ≠ rawGet ((readP2 9 54).withPorts [] [0x34] [rxCycle none]).raw 9) ∧
    (∃ t, step (doneP2.withPorts [] [] [rstCycle]) = .next t ∧ rawGet t.raw 9 ≠ rawGet doneP2.raw 9) :=
  ⟨⟨_, rfl, by decide⟩, ⟨_, rfl, by decide⟩⟩

/-- FaultBitsStayUntilRdstartOrReset: an accepted RDSTART, and a reset. -/
theorem witness_faultBits :
    (∃ t, step (doneFaulted.presenting 0x80000002_0000000A_00000013) = .next t ∧
      0 ∈ (doneFaulted.presenting 0x80000002_0000000A_00000013).faults ∧ 0 ∉ t.faults) ∧
    (∃ t, step (doneFaulted.withPorts [] [] [rstCycle]) = .next t ∧ 0 ∉ t.faults) :=
  ⟨⟨_, rfl, by decide, by decide⟩, ⟨_, rfl, by decide⟩⟩

/-- PureOperationsCommuteWithTheStream: CSADD and a payload byte. -/
theorem witness_commute : readerOperation (.csadd 0x31) = false ∧ (∃ t, exec (.csadd 0x31) (readP2 9 54) = .next t) ∧
    ∃ u, rxStep 0x34 (readP2 9 54) = .next u := ⟨rfl, ⟨_, rfl⟩, ⟨_, rfl⟩⟩

/-- StepKeepsInv, StepNeverStopsUnderInv: a stored byte, a checksum byte that differs, and RDSTART from DONE. -/
theorem witness_stepKeepsInv :
    (StateInv ((readP2 9 54).withPorts [] [0x34] [rxCycle none]) ∧
      ∃ t, step ((readP2 9 54).withPorts [] [0x34] [rxCycle none]) = .next t) ∧
    (StateInv ((readP2 10 42).withPorts [] [0x35] [rxCycle none]) ∧
      ∃ t, step ((readP2 10 42).withPorts [] [0x35] [rxCycle none]) = .next t ∧ t.faults = [0]) ∧
    (StateInv (doneP2.presenting 0x80000002_0000000A_00000013) ∧
      ∃ t, step (doneP2.presenting 0x80000002_0000000A_00000013) = .next t ∧ t.status.ph = .active) :=
  ⟨⟨inv_readP2_9.withPorts _ _ _, _, rfl⟩, ⟨inv_readP2_10.withPorts _ _ _, _, rfl, rfl⟩,
    ⟨inv_doneP2.withPorts _ _ _, _, rfl, rfl⟩⟩

/-- What RD_ACC holds after nine payload bytes of program P2, and after all ten. -/
theorem accInv_readP2 : AccInv (readP2 9 54) ∧ AccInv (readP2 10 42) :=
  ⟨fun _ => ⟨payloadP2.take 9, by decide, by decide⟩, fun _ => ⟨payloadP2, by decide, by decide⟩⟩

/-- StepKeepsAccInv: the last payload byte of program P2. -/
theorem witness_stepKeepsAccInv : StateInv ((readP2 9 54).withPorts [] [0x34] [rxCycle none]) ∧
    AccInv ((readP2 9 54).withPorts [] [0x34] [rxCycle none]) ∧
    ∃ t, step ((readP2 9 54).withPorts [] [0x34] [rxCycle none]) = .next t :=
  ⟨inv_readP2_9.withPorts _ _ _, accInv_readP2.1, _, rfl⟩

/-- SumByteIsComparedWithTheBlockChecksum: program P2's checksum byte. -/
theorem witness_sumByte : StateInv (readP2 10 42) ∧ AccInv (readP2 10 42) ∧ (readP2 10 42).status.ph = .active ∧
    (readP2 10 42).roleAt (readP2 10 42).pos.toNat = .sum 0 := ⟨inv_readP2_10, accInv_readP2.2, by decide, by decide⟩

/-- StepKeepsRawCanonical: a stored byte. -/
theorem witness_rawCanonical : Memory.wf ((readP2 9 54).withPorts [] [0x34] [rxCycle none]).raw = true ∧
    ∃ t, step ((readP2 9 54).withPorts [] [0x34] [rxCycle none]) = .next t ∧ t.raw.length = 10 :=
  ⟨by decide, _, rfl, by decide⟩

/-- ReadQuantitiesUnderInv: a finished read. -/
theorem witness_readQuantities : StateInv doneP2 ∧ doneP2.status.ph = .done ∧ 9 < doneP2.byteCount.toNat :=
  ⟨inv_doneP2, by decide, by decide⟩

/-- CompletedReadHoldsThePayload: program P2. -/
theorem witness_completedRead : StateInv idle ∧
    exec (.rdstart 0 2 10 19) idle = .next { readP2 0 0 with rsp := some ⟨.ok, 0⟩ } ∧
    (payloadP2 ++ [0x5A, 0x0A, 0x0A]).length = (readP2 0 0).streamLen ∧
    0 ≤ (readP2 0 0).fullBlocks.toNat ∧ (4 : Word).toNat < (readP2 0 0).sampleCount.toNat :=
  ⟨inv_idle, rfl, by decide, by decide, by decide⟩

/-- ReaderWaitsWithoutEnd: program P2 in mid-read; the host presents a command, then nothing is driven; and a transport
that would present a byte but has none. -/
theorem witness_readerWaits :
    WaitsForTransport ((readP2 5 49).withPorts [0x90000009_00000000_00000000] [0x32] [Cycle.command]) ∧
    WaitsForTransport ((readP2 5 49).withPorts [] [] [rxCycle none]) := by
  simp only [WaitsForTransport, TransportSilent]
  decide

/-- ReadEndsWhereTheTransportDelivers: program P2 from its last payload byte, all four bytes that are left and none. -/
theorem witness_readEnds : StateInv (readP2 9 54) ∧ (readP2 9 54).status.ph = .active ∧
    ([0x34, 0x5A, 0x0A, 0x0A] : List Byte).length = (readP2 9 54).streamLen - (readP2 9 54).pos.toNat ∧
    ([] : List Byte).length ≤ (readP2 9 54).streamLen - (readP2 9 54).pos.toNat :=
  ⟨inv_readP2_9, by decide, by decide, by decide⟩

/-- DiscardedBytesHaveNoInfluence: program P7's stream with two headers and two pairs of terminators. -/
theorem witness_discardedBytes : StateInv (emptyRead 0) ∧ (emptyRead 0).status.ph = .active ∧ (emptyRead 0).pos = 0 ∧
    ([0x41, 0x42, 0x43, 0x44, 0x3A, 0x0A, 0x30, 0x0A, 0x0A] : List Byte).length = (emptyRead 0).streamLen ∧
    ([0, 1, 2, 3, 4, 5, 0x30, 7, 8] : List Byte).length = (emptyRead 0).streamLen ∧
    ∀ i < (emptyRead 0).streamLen, (emptyRead 0).roleAt i ≠ .hdr → (emptyRead 0).roleAt i ≠ .term →
      ([0x41, 0x42, 0x43, 0x44, 0x3A, 0x0A, 0x30, 0x0A, 0x0A] : List Byte)[i]? = [0, 1, 2, 3, 4, 5, 0x30, 7, 8][i]? :=
  ⟨inv_emptyRead_0, by decide, by decide, by decide, by decide, by decide⟩

end Sys2Proof.Tests
end

/-! SUPPORT. The state's registers across one step (10_state.md R22, R30): what any host operation, any command word and
any `rx` step can do, said once, and the statements of the family 10_state.md. -/

namespace Sys2Proof.Machine

/-! ### What a host operation can do -/

/-- An RDSTART with every guard met, from `s`, and the armed state `t` it answers with (R95). -/
structure RdstartAccepted (wsel : BitVec 2) (c : BitVec 12) (a b : Word) (s t : State) : Prop where
  width : wsel.toNat < 2
  notActive : s.status.ph ≠ .active
  cluster : c ≠ 0
  range : a.toNat < b.toNat
  fits : (shape a.toNat b.toNat c.toNat (fieldWidth wsel)).byteCount ≤ s.rawDepth.toNat
  arms : t = (armReader s wsel c a b (shape a.toNat b.toNat c.toNat (fieldWidth wsel))).withRsp (some ⟨.ok, 0⟩)

/-- A host operation that answers changes the response output alone, or writes CSACC besides it (CSCLR, CSADD), or is
an accepted RDSTART (R20, R95). A result comes with status OK only, and an RDSTART that changes the response output alone
does not answer OK. -/
theorem exec_eq_next {i : Instr} {s t : State} (h : exec i s = .next t) :
    (∃ r, (r.status = .ok ∨ r.result = 0) ∧ (∀ wsel c a b, i = .rdstart wsel c a b → r.status ≠ .ok) ∧
      t = s.withRsp (some r)) ∨
    ((i = .csclr ∨ ∃ b, i = .csadd b) ∧ ∃ v, t = (s.withCsacc v).withRsp (some ⟨.ok, 0⟩)) ∨
    (∃ wsel c a b, i = .rdstart wsel c a b ∧ RdstartAccepted wsel c a b s t) := by
  cases i with
  | enc wsel value =>
    simp only [exec, execEnc] at h
    split_ifs at h
    · exact .inl ⟨_, .inr rfl, by simp, raise_eq_next.mp h⟩
    · exact .inl ⟨_, .inr rfl, by simp, raise_eq_next.mp h⟩
    · exact .inl ⟨_, .inl rfl, by simp, respond_eq_next.mp h⟩
  | dec wsel field =>
    simp only [exec, execDec] at h
    split_ifs at h
    · exact .inl ⟨_, .inr rfl, by simp, raise_eq_next.mp h⟩
    · exact .inl ⟨_, .inl rfl, by simp, respond_eq_next.mp h⟩
  | csclr => exact .inr (.inl ⟨.inl rfl, _, respond_eq_next.mp h⟩)
  | csadd byte => exact .inr (.inl ⟨.inr ⟨byte, rfl⟩, _, respond_eq_next.mp h⟩)
  | csget => exact .inl ⟨_, .inl rfl, by simp, respond_eq_next.mp h⟩
  | csvfy claimed => exact .inl ⟨_, .inl rfl, by simp, respond_eq_next.mp h⟩
  | classify s0 s1 => exact .inl ⟨_, .inl rfl, by simp, respond_eq_next.mp h⟩
  | rdstart wsel c a b =>
    rcases execRdstart_eq_next h with ⟨e, he, ht⟩ | ⟨hw, hph, hc, hab, hfit, ht⟩
    · exact .inl ⟨_, .inr rfl, fun _ _ _ _ _ => he, ht⟩
    · exact .inr (.inr ⟨wsel, c, a, b, rfl, hw, hph, hc, hab, hfit, ht⟩)
  | rdreg number => obtain ⟨r, hr, ht⟩ := execRdreg_eq_next h; exact .inl ⟨r, hr, by simp, ht⟩
  | rdsamp index => obtain ⟨r, hr, ht⟩ := execRdsamp_eq_next h; exact .inl ⟨r, hr, by simp, ht⟩
  | rdraw addr => obtain ⟨r, hr, ht⟩ := execRdraw_eq_next h; exact .inl ⟨r, hr, by simp, ht⟩
  | rdflt block => obtain ⟨r, hr, ht⟩ := execRdflt_eq_next h; exact .inl ⟨r, hr, by simp, ht⟩

/-- A word carries the operation code of the operation it selects (R58). -/
theorem opField_of_decode {w : CmdWord} {i : Instr} (h : decode w = .ok i) : opField w = opField (encode i) := by
  obtain ⟨-, hop⟩ := decode_eq_ok h
  rcases hop with ⟨ho, rfl⟩ | ⟨ho, rfl⟩ | ⟨ho, rfl⟩ | ⟨ho, rfl⟩ | ⟨ho, rfl⟩ | ⟨ho, rfl⟩ | ⟨ho, rfl⟩ | ⟨ho, rfl⟩ |
    ⟨ho, rfl⟩ | ⟨ho, rfl⟩ | ⟨ho, rfl⟩ | ⟨ho, rfl⟩ <;> simp [ho, encode]

/-- An accepted word with RDSTART's operation code is an RDSTART of its own fields (R56, R58). -/
theorem decode_of_opField_rdstart {w : CmdWord} {i : Instr} (h : decode w = .ok i) (h8 : opField w = 0x8) :
    i = .rdstart (wselField w) (cField w) (aField w) (bField w) := by
  obtain ⟨-, hop⟩ := decode_eq_ok h
  simpa [h8] using hop

/-- `exec_eq_next` for a command word, by its operation code (R58); a word that selects no operation is refused (R62). -/
theorem runCommand_eq_next {w : CmdWord} {s t : State} (h : runCommand w s = .next t) :
    (∃ r, (r.status = .ok ∨ r.result = 0) ∧ (opField w = 0x8 → r.status ≠ .ok) ∧ t = s.withRsp (some r)) ∨
    ((opField w = 0x3 ∨ opField w = 0x4) ∧ ∃ v, t = (s.withCsacc v).withRsp (some ⟨.ok, 0⟩)) ∨
    (opField w = 0x8 ∧ ∃ wsel c a b, decode w = .ok (.rdstart wsel c a b) ∧ RdstartAccepted wsel c a b s t) := by
  unfold runCommand at h
  split at h
  · next i hd =>
    rcases exec_eq_next h with ⟨r, hr, hne, ht⟩ | ⟨hi, ht⟩ | ⟨wsel, c, a, b, rfl, hacc⟩
    · exact .inl ⟨r, hr, fun h8 => hne _ _ _ _ (decode_of_opField_rdstart hd h8), ht⟩
    · refine .inr (.inl ⟨?_, ht⟩)
      rcases hi with rfl | ⟨b, rfl⟩
      · exact .inl (by simp [opField_of_decode hd, encode])
      · exact .inr (by simp [opField_of_decode hd, encode])
    · exact .inr (.inr ⟨by simp [opField_of_decode hd, encode], wsel, c, a, b, hd, hacc⟩)
  · exact .inl ⟨_, .inr rfl, by simp, raise_eq_next.mp h⟩

/-- RDREG answers a CSR that exists (R102). -/
theorem exec_rdreg_of_csr {n : BitVec 12} {s : State} {v : Word} (h : csr s n.toNat = some v) :
    exec (.rdreg n) s = .next (s.withRsp (some ⟨.ok, v⟩)) := by
  simp only [exec, execRdreg, h, respond]

/-! ### What an `rx` step leaves unchanged -/

/-- Consuming a byte writes STATUS, WP, FAULT_COUNT, RD_ACC, FAULT and RAW at most (R99). -/
theorem consumeByte_frame {s t : State} {r : Role} {b : Byte} (h : consumeByte s r b = .ok t) :
    t = { s with
      status := t.status, wp := t.wp, faultCount := t.faultCount, rdAcc := t.rdAcc, faults := t.faults, raw := t.raw } := by
  rcases consumeByte_eq_ok h with ⟨-, rfl⟩ | ⟨k, o, -, -, rfl⟩ | ⟨k, -, -, rfl⟩ | ⟨k, -, -, -, rfl⟩ <;> rfl

/-- An `rx` step moves POS by one, empties the response output, and writes besides them what consuming its byte writes
(R22, R99). -/
theorem rxStep_frame {s t : State} {b : Byte} (h : rxStep b s = .next t) :
    t = { s with
      status := t.status, pos := s.pos + 1, wp := t.wp, faultCount := t.faultCount, rdAcc := t.rdAcc,
      faults := t.faults, raw := t.raw, rsp := none } := by
  obtain ⟨-, u, hu, rfl⟩ := rxStep_eq_next h
  have hpos : BitVec.ofNat 32 (s.pos.toNat + 1) = s.pos + 1 := by simp [BitVec.ofNat_add]
  rw [consumeByte_frame hu, advance_eq, hpos]
  rfl

/-- `rxStep_frame` read at POS. -/
theorem rxStep_pos {s t : State} {b : Byte} (h : rxStep b s = .next t) : t.pos = s.pos + 1 := by
  rw [rxStep_frame h]

/-- A position inside the stream of a read has a successor that does not wrap and is at most L (R22, R96). -/
theorem StateInv.pos_succ {s : State} (h : StateInv s) (hp : s.status.ph = .active) :
    (s.pos + 1).toNat = s.pos.toNat + 1 ∧ (s.pos + 1).toNat ≤ s.streamLen := by
  have hlt : s.pos.toNat < s.streamLen := h.position.2 (.inl hp)
  have hL : s.streamLen < 2 ^ 32 := h.streamLen_lt (by simp [hp])
  have hnowrap : (s.pos + 1).toNat = s.pos.toNat + 1 := BitVec.toNat_add_of_lt (by simp; omega)
  omega

/-! ### POS -/

/-- A command moves POS to 0 where it is an accepted RDSTART, and keeps it otherwise (R22). -/
theorem runCommand_pos {w : CmdWord} {s t : State} (h : runCommand w s = .next t) :
    t.pos = if opField w = 0x8 ∧ t.rsp = some ⟨.ok, 0⟩ then 0 else s.pos := by
  rcases runCommand_eq_next h with ⟨r, -, hne, rfl⟩ | ⟨hop, v, rfl⟩ | ⟨hop, wsel, c, a, b, -, hacc⟩
  · have hno : ¬(opField w = 0x8 ∧ some r = some ⟨.ok, 0⟩) := fun ⟨h8, hr⟩ => hne h8 (by simp [Option.some.inj hr])
    exact (if_neg hno).symm
  · rcases hop with hop | hop <;> simp [hop]
  · simp [hop, hacc.arms]

/-- Settles O38, by the kind of the step. -/
theorem posMovesOnlyByRxRdstartReset : Obligations.PosMovesOnlyByRxRdstartReset := by
  unfold Obligations.PosMovesOnlyByRxRdstartReset
  intro s t h
  obtain ⟨k, ws, bs, cs, hk, hstep⟩ := step_eq_next h
  rw [hk]
  cases k with
  | cmd w => exact runCommand_pos (s := s.withPorts ws bs cs) hstep
  | rx b =>
    obtain ⟨hph, hrx⟩ := hstep
    have hpos : t.pos = s.pos + 1 := rxStep_pos (s := s.withPorts ws bs cs) hrx
    exact ⟨hpos, fun hinv => hpos ▸ hinv.pos_succ hph⟩
  | rxFail k => simp [show t = _ from hstep, rxFailStep_eq]
  | reset => simp [show t = _ from hstep]
  | idle => simp [show t = _ from hstep]

/-! ### The parameters -/

/-- No command writes the parameters (R30). -/
theorem runCommand_params {w : CmdWord} {s t : State} (h : runCommand w s = .next t) :
    t.hdrLen = s.hdrLen ∧ t.rawDepth = s.rawDepth := by
  rcases runCommand_eq_next h with ⟨r, -, -, rfl⟩ | ⟨-, v, rfl⟩ | ⟨-, wsel, c, a, b, -, hacc⟩
  · simp
  · simp
  · simp [hacc.arms]

/-- No step writes the parameters, reset included (R30). -/
theorem step_params {s t : State} (h : step s = .next t) : t.hdrLen = s.hdrLen ∧ t.rawDepth = s.rawDepth := by
  obtain ⟨k, ws, bs, cs, -, hstep⟩ := step_eq_next h
  cases k with
  | cmd w => exact runCommand_params (s := s.withPorts ws bs cs) hstep
  | rx b => rw [rxStep_frame hstep.2]; simp
  | rxFail k => simp [show t = _ from hstep, rxFailStep_eq]
  | reset => simp [show t = _ from hstep]
  | idle => simp [show t = _ from hstep]

/-- Settles O40: CSR 11 and CSR 12 are the two parameters, and `step_params`. -/
theorem parametersAreConstant : Obligations.ParametersAreConstant := by
  unfold Obligations.ParametersAreConstant
  exact fun s => ⟨exec_rdreg_of_csr rfl, exec_rdreg_of_csr rfl, fun _ h => step_params h⟩

end Sys2Proof.Machine

/-! SUPPORT. Which words the decoder accepts, which it refuses, and which bits it looks at (30_encoding.md R56, R59, R61,
R62), each said once as an equivalence, and the statements of the family 30_encoding.md. -/

namespace Sys2Proof

/-! ### The fields of a masked word -/

@[simp] theorem opField_and (w m : CmdWord) : opField (w &&& m) = opField w &&& opField m := BitVec.extractLsb'_and

@[simp] theorem wselField_and (w m : CmdWord) : wselField (w &&& m) = wselField w &&& wselField m :=
  BitVec.extractLsb'_and

@[simp] theorem cField_and (w m : CmdWord) : cField (w &&& m) = cField w &&& cField m := BitVec.extractLsb'_and

@[simp] theorem aField_and (w m : CmdWord) : aField (w &&& m) = aField w &&& aField m := BitVec.extractLsb'_and

@[simp] theorem bField_and (w m : CmdWord) : bField (w &&& m) = bField w &&& bField m := BitVec.extractLsb'_and

@[simp] theorem lowByte_and (a m : Word) : lowByte (a &&& m) = lowByte a &&& lowByte m := BitVec.extractLsb'_and

@[simp] theorem secondByte_and (a m : Word) : secondByte (a &&& m) = secondByte a &&& secondByte m :=
  BitVec.extractLsb'_and

/-! ### The words the decoder accepts -/

/-- `decode_eq_ok` with its converse: the operation code and the fields of a legal operation select it (R58, R59). -/
theorem decode_eq_ok_iff {w : CmdWord} {i : Instr} : decode w = .ok i ↔ i.WellFormed ∧
    ((opField w = 0x1 ∧ i = .enc (wselField w) (aField w)) ∨
      (opField w = 0x2 ∧ i = .dec (wselField w) (aField w)) ∨
      (opField w = 0x3 ∧ i = .csclr) ∨
      (opField w = 0x4 ∧ i = .csadd (lowByte (aField w))) ∨
      (opField w = 0x5 ∧ i = .csget) ∨
      (opField w = 0x6 ∧ i = .csvfy (lowByte (aField w))) ∨
      (opField w = 0x7 ∧ i = .classify (secondByte (aField w)) (lowByte (aField w))) ∨
      (opField w = 0x8 ∧ i = .rdstart (wselField w) (cField w) (aField w) (bField w)) ∨
      (opField w = 0x9 ∧ i = .rdreg (cField w)) ∨
      (opField w = 0xA ∧ i = .rdsamp (aField w)) ∨
      (opField w = 0xB ∧ i = .rdraw (aField w)) ∨
      (opField w = 0xC ∧ i = .rdflt (aField w))) := by
  refine ⟨decode_eq_ok, fun ⟨hwf, hop⟩ => ?_⟩
  rcases hop with ⟨ho, rfl⟩ | ⟨ho, rfl⟩ | ⟨ho, rfl⟩ | ⟨ho, rfl⟩ | ⟨ho, rfl⟩ | ⟨ho, rfl⟩ | ⟨ho, rfl⟩ | ⟨ho, rfl⟩ |
    ⟨ho, rfl⟩ | ⟨ho, rfl⟩ | ⟨ho, rfl⟩ | ⟨ho, rfl⟩ <;> simp [decode, ho, checkedWidth, hwf]

/-- A mask of ones keeps the whole field. -/
theorem and_of_eq_allOnes {n : Nat} {x m : BitVec n} (h : m = BitVec.allOnes n) : x &&& m = x := by
  rw [h, BitVec.and_allOnes]

/-- Whether a word selects an operation is decided by the bits that operation uses: its mask keeps the operation code and
every field the operation has (R56, R61). -/
theorem decode_and_usedMask {w : CmdWord} {i : Instr} : decode (w &&& usedMask i) = .ok i ↔ decode w = .ok i := by
  simp only [decode_eq_ok_iff]
  cases i <;> simp (disch := decide) [usedMask, and_of_eq_allOnes]

/-! ### The words the decoder refuses -/

/-- The operation codes of no operation (R62). -/
def ReservedCode (op : BitVec 4) : Prop := op = 0x0 ∨ op = 0xD ∨ op = 0xE ∨ op = 0xF

/-- The width selects that are not legal for their operation, by its code (R59). -/
def IllegalWidth (op : BitVec 4) (wsel : BitVec 2) : Prop :=
  ((op = 0x1 ∨ op = 0x2) ∧ wsel = 3) ∨ (op = 0x8 ∧ 2 ≤ wsel.toNat)

/-- The codes R58 assigns leave the reserved ones. -/
theorem reservedCode_of_ne : ∀ op : BitVec 4, op ≠ 0x1 → op ≠ 0x2 → op ≠ 0x3 → op ≠ 0x4 → op ≠ 0x5 → op ≠ 0x6 →
    op ≠ 0x7 → op ≠ 0x8 → op ≠ 0x9 → op ≠ 0xA → op ≠ 0xB → op ≠ 0xC → ReservedCode op := by
  unfold ReservedCode; decide

/-- A width check that fails names the width select (R59). -/
theorem checkedWidth_eq_error {wsel : BitVec 2} {i : Instr} {e : DecodeError} :
    checkedWidth wsel i = .error e ↔ ¬i.WellFormed ∧ e = .illegalWidth wsel := by
  unfold checkedWidth
  split
  · next hwf => simp [hwf]
  · next hwf => simp [hwf, eq_comm]

theorem not_wellFormed_enc_iff {wsel : BitVec 2} {value : Word} : ¬(Instr.enc wsel value).WellFormed ↔ wsel = 3 := by
  simp [Instr.wellFormed]

theorem not_wellFormed_dec_iff {wsel : BitVec 2} {field : Word} : ¬(Instr.dec wsel field).WellFormed ↔ wsel = 3 := by
  simp [Instr.wellFormed]

theorem not_wellFormed_rdstart_iff {wsel : BitVec 2} {c : BitVec 12} {a b : Word} :
    ¬(Instr.rdstart wsel c a b).WellFormed ↔ 2 ≤ wsel.toNat := by
  simp only [Instr.WellFormed, Instr.wellFormed]
  revert wsel; decide

/-- The decoder refuses the reserved codes and the illegal width selects, by name, and nothing else: operation code and
width select decide it (R59, R62). -/
theorem decode_eq_error_iff {w : CmdWord} {e : DecodeError} : decode w = .error e ↔
    (ReservedCode (opField w) ∧ e = .reservedOp (opField w)) ∨
    (IllegalWidth (opField w) (wselField w) ∧ e = .illegalWidth (wselField w)) := by
  constructor
  · intro h
    unfold decode at h
    split at h
    case h_1 ho =>
      obtain ⟨hw, rfl⟩ := checkedWidth_eq_error.mp h
      exact .inr ⟨.inl ⟨.inl ho, not_wellFormed_enc_iff.mp hw⟩, rfl⟩
    case h_2 ho =>
      obtain ⟨hw, rfl⟩ := checkedWidth_eq_error.mp h
      exact .inr ⟨.inl ⟨.inr ho, not_wellFormed_dec_iff.mp hw⟩, rfl⟩
    case h_8 ho =>
      obtain ⟨hw, rfl⟩ := checkedWidth_eq_error.mp h
      exact .inr ⟨.inr ⟨ho, not_wellFormed_rdstart_iff.mp hw⟩, rfl⟩
    case h_13 =>
      exact .inl ⟨reservedCode_of_ne _ ‹_› ‹_› ‹_› ‹_› ‹_› ‹_› ‹_› ‹_› ‹_› ‹_› ‹_› ‹_›, (Except.error.inj h).symm⟩
    all_goals cases h
  · rintro (⟨ho | ho | ho | ho, rfl⟩ | ⟨⟨ho | ho, hw⟩ | ⟨ho, hw⟩, rfl⟩)
    · simp [decode, ho]
    · simp [decode, ho]
    · simp [decode, ho]
    · simp [decode, ho]
    · simpa [decode, ho] using checkedWidth_eq_error.mpr ⟨not_wellFormed_enc_iff.mpr hw, rfl⟩
    · simpa [decode, ho] using checkedWidth_eq_error.mpr ⟨not_wellFormed_dec_iff.mpr hw, rfl⟩
    · simpa [decode, ho] using checkedWidth_eq_error.mpr ⟨not_wellFormed_rdstart_iff.mpr hw, rfl⟩

end Sys2Proof

namespace Sys2Proof.Machine

/-! ### What a command word does -/

/-- Words with the same decoding do the same in every state. -/
theorem runCommand_congr {w v : CmdWord} (h : decode v = decode w) (s : State) : runCommand v s = runCommand w s := by
  simp only [runCommand, h]

/-- A word the decoder refuses is answered with ERR_ILLOP and changes nothing else (R62). -/
theorem runCommand_of_error {w : CmdWord} {e : DecodeError} (h : decode w = .error e) (s : State) :
    runCommand w s = .next (s.withRsp (some ⟨.errIllop, 0⟩)) := by
  simp only [runCommand, h, raise]

/-- Settles O2: the masked words are one word, and a refusal is decided by operation code and width select. -/
theorem ignoredBitsChangeNothing : Obligations.IgnoredBitsChangeNothing := by
  unfold Obligations.IgnoredBitsChangeNothing
  constructor
  · intro w v i hw hmask
    have hv : decode v = .ok i := by rwa [← decode_and_usedMask, hmask, decode_and_usedMask]
    exact ⟨hv, runCommand_congr (hv.trans hw.symm)⟩
  · intro w v e hw hop hwsel
    have hv : decode v = .error e := by rwa [decode_eq_error_iff, hop, hwsel, ← decode_eq_error_iff]
    exact ⟨hv, runCommand_congr (hv.trans hw.symm)⟩

/-- Settles O3, by whether the operation code is reserved or the width select illegal. -/
theorem everyWordSelectsOrIsRefused : Obligations.EveryWordSelectsOrIsRefused := by
  unfold Obligations.EveryWordSelectsOrIsRefused
  intro w
  by_cases h : ReservedCode (opField w) ∨ IllegalWidth (opField w) (wselField w)
  · rw [if_pos (by simpa only [ReservedCode, IllegalWidth, or_assoc] using h)]
    rcases h with hop | hwsel
    · exact runCommand_of_error (decode_eq_error_iff.mpr (.inl ⟨hop, rfl⟩))
    · exact runCommand_of_error (decode_eq_error_iff.mpr (.inr ⟨hwsel, rfl⟩))
  · rw [if_neg (by simpa only [ReservedCode, IllegalWidth, or_assoc] using h)]
    match hd : decode w with
    | .ok i => exact ⟨i, rfl, (decode_eq_ok hd).1, (opField_of_decode hd).symm⟩
    | .error e => exact absurd ((decode_eq_error_iff.mp hd).imp And.left And.left) h

end Sys2Proof.Machine

/-! SUPPORT. The value codec (40_value_codec.md): the fields of the packed word and the groups of a value, least
significant first, as digits of a natural number, and the statements of the family about ENC and DEC. -/

namespace Sys2Proof.Machine

/-! ### Width selects -/

/-- A legal width select gives at most four characters (R59). -/
theorem fieldWidth_le {wsel : BitVec 2} (h : wsel ≠ 3) : fieldWidth wsel ≤ 4 := by
  have hne : wsel.toNat ≠ 3 := fun h3 => h (BitVec.eq_of_toNat_eq h3)
  have hlt : wsel.toNat < 4 := wsel.isLt
  simp only [fieldWidth]
  omega

/-! ### Lists of characters from their last one -/

/-- `unpack`, from its last character on: character `j` is the byte `j` of the word (R59). -/
theorem reverse_unpack (x : Word) (w : Nat) :
    (unpack x w).reverse = (List.range w).map fun j => x.extractLsb' (8 * j) 8 := by
  refine List.ext_getElem (by simp [unpack]) fun j hj _ => ?_
  have hlt : j < w := by simpa [unpack] using hj
  simp [unpack, show w - 1 - (w - 1 - j) = j by omega]

/-- `enc`, from its last character on: character `j` carries the `j`-th group of six bits (R70). -/
theorem reverse_enc (v w : Nat) :
    (enc v w).reverse = (List.range w).map fun j => BitVec.ofNat 8 (v / 64 ^ j % 64 + 0x30) := by
  refine List.ext_getElem (by simp [enc]) fun j hj _ => ?_
  have hlt : j < w := by simpa [enc] using hj
  have hmask (n : Nat) : n &&& 0x3F = n % 64 := Nat.and_two_pow_sub_one_eq_mod n 6
  simp [enc, charOffset, show w - 1 - (w - 1 - j) = j by omega, Nat.shiftRight_eq_div_pow, pow_mul, hmask]

@[simp] theorem length_unpack (x : Word) (w : Nat) : (unpack x w).length = w := by simp [unpack]

@[simp] theorem length_enc (v w : Nat) : (enc v w).length = w := by simp [enc]

/-- Words of `n` bits are digits to the base `2 ^ n`. -/
theorem lt_of_mem_map_toNat {n d : Nat} {l : List (BitVec n)} (h : d ∈ l.map BitVec.toNat) : d < 2 ^ n := by
  obtain ⟨x, -, rfl⟩ := List.mem_map.mp h
  exact x.isLt

/-! ### The group of a character, and `dec` -/

/-- R71's group: the wrapped difference's low six bits. -/
theorem toNat_group (c : Byte) : (group c).toNat = (c.toNat + 256 - 0x30) % 256 % 64 := by
  simp only [group, charOffset, BitVec.extractLsb'_toNat, BitVec.toNat_sub, BitVec.toNat_ofNat]
  omega

/-- One more character: R71's loop body, with the `|` of disjoint bits as a sum. -/
theorem dec_concat (cs : List Byte) (c : Byte) : dec (cs ++ [c]) = dec cs * 64 + (group c).toNat := by
  have hor : dec cs <<< 6 + (group c).toNat = dec cs <<< 6 ||| (group c).toNat :=
    Nat.shiftLeft_add_eq_or_of_lt (group c).isLt _
  simpa [dec, Nat.shiftLeft_eq] using hor.symm

/-- `dec` reads the groups as the digits of a number to the base 64, the last character's group lowest (R71). -/
theorem dec_eq_ofDigits (cs : List Byte) :
    dec cs = Nat.ofDigits 64 ((cs.reverse.map group).map BitVec.toNat) := by
  induction cs using List.reverseRecOn with
  | nil => rfl
  | append_singleton cs c ih =>
    rw [dec_concat, ih, List.reverse_concat, List.map_cons, List.map_cons, Nat.ofDigits_cons]
    omega

/-- A field of `w` characters decodes below `64 ^ w` (R71). -/
theorem dec_lt (cs : List Byte) : dec cs < 64 ^ cs.length := by
  rw [dec_eq_ofDigits]
  simpa using Nat.ofDigits_lt_base_pow_length (b := 64) (by decide) fun _ =>
    lt_of_mem_map_toNat (n := 6) (l := cs.reverse.map group)

/-- The byte `j` of a word, as a digit of its value to the base 256 (R59). -/
theorem toNat_byte (x : Word) (j : Nat) : (x.extractLsb' (8 * j) 8).toNat = x.toNat / 256 ^ j % 256 := by
  simp [Nat.shiftRight_eq_div_pow, pow_mul]

/-- `dec` of an unpacked field, as the sum of its groups' values by byte of the word (R59, R71). -/
theorem dec_unpack (x : Word) (w : Nat) :
    dec (unpack x w) = ((List.range w).map fun j =>
      (x.toNat / 256 ^ j % 256 + 256 - 0x30) % 256 % 64 * 64 ^ j).sum := by
  rw [dec_eq_ofDigits, reverse_unpack, Nat.ofDigits_eq_sum_mapIdx]
  congr 1
  refine List.ext_getElem (by simp) fun j _ _ => ?_
  simp only [List.getElem_mapIdx, List.getElem_map, List.getElem_range, toNat_group, toNat_byte]

/-! ### `pack` -/

/-- `pack` of one more character, with the `|` of disjoint bits as a sum, while the bytes before it fit (R59). -/
theorem toNat_pack_concat {cs : List Byte} (c : Byte) (h : (pack cs).toNat < 2 ^ 24) :
    (pack (cs ++ [c])).toNat = (pack cs).toNat * 256 + c.toNat := by
  have hor : (pack cs).toNat <<< 8 + c.toNat = (pack cs).toNat <<< 8 ||| c.toNat :=
    Nat.shiftLeft_add_eq_or_of_lt c.isLt _
  have hfit : (pack cs).toNat <<< 8 % 2 ^ 32 = (pack cs).toNat <<< 8 := by
    rw [Nat.shiftLeft_eq]
    omega
  have hstep : pack (cs ++ [c]) = pack cs <<< 8 ||| c.setWidth 32 := by simp [pack]
  rw [hstep, BitVec.toNat_or, BitVec.toNat_shiftLeft, hfit, BitVec.toNat_setWidth_of_le (by decide), ← hor,
    Nat.shiftLeft_eq]

/-- The bytes of a list of characters are digits to the base 256. -/
theorem ofDigits_bytes_lt (cs : List Byte) : Nat.ofDigits 256 (cs.map BitVec.toNat) < 256 ^ cs.length := by
  simpa using Nat.ofDigits_lt_base_pow_length (b := 256) (by decide) fun _ => lt_of_mem_map_toNat (n := 8) (l := cs)

/-- Up to four characters, `pack` reads them as the digits of a number to the base 256, the last one lowest (R59). -/
theorem toNat_pack {cs : List Byte} (h : cs.length ≤ 4) :
    (pack cs).toNat = Nat.ofDigits 256 (cs.reverse.map BitVec.toNat) := by
  induction cs using List.reverseRecOn with
  | nil => rfl
  | append_singleton cs c ih =>
    have hlen : cs.length ≤ 3 := by simpa [Nat.lt_succ_iff] using h
    have hp := ih (by omega)
    have hlt : (pack cs).toNat < 2 ^ 24 := by
      have hdigits := ofDigits_bytes_lt cs.reverse
      rw [← hp, List.length_reverse] at hdigits
      exact hdigits.trans_le (Nat.pow_le_pow_right (by decide) hlen)
    rw [toNat_pack_concat c hlt, hp, List.reverse_concat, List.map_cons, Nat.ofDigits_cons]
    omega

/-- The bytes above the packed characters are 0 (R59). -/
theorem toNat_pack_lt {cs : List Byte} (h : cs.length ≤ 4) : (pack cs).toNat < 256 ^ cs.length := by
  simpa [toNat_pack h] using ofDigits_bytes_lt cs.reverse

/-- The byte `k` of the packed word is the `k`-th character from the end (R59). -/
theorem toNat_pack_byte {cs : List Byte} (h : cs.length ≤ 4) {k : Nat} (hk : k < cs.reverse.length) :
    (pack cs).toNat / 256 ^ k % 256 = cs.reverse[k].toNat := by
  have hdigits : ∀ d ∈ cs.reverse.map BitVec.toNat, d < 256 := fun _ => lt_of_mem_map_toNat (n := 8)
  rw [toNat_pack h, Nat.ofDigits_div_pow_eq_ofDigits_drop k (by decide) _ hdigits, ← List.map_drop,
    List.drop_eq_getElem_cons hk, List.map_cons, Nat.ofDigits_cons, Nat.add_mul_mod_self_left]
  exact Nat.mod_eq_of_lt cs.reverse[k].isLt

/-- The byte `k` of a packed encoding is the `k`-th group of six bits in its character (R59, R70). -/
theorem toNat_pack_enc_byte (v : Nat) {w k : Nat} (hw : w ≤ 4) (hk : k < w) :
    (pack (enc v w)).toNat / 256 ^ k % 256 = v / 64 ^ k % 64 + 0x30 := by
  rw [toNat_pack_byte (by simpa using hw) (by simpa using hk)]
  simp only [reverse_enc, List.getElem_map, List.getElem_range, BitVec.toNat_ofNat]
  omega

/-! ### ENC and DEC -/

/-- The illegal width select is refused (R73). -/
theorem exec_enc_illop (v : Word) (s : State) : exec (.enc 3 v) s = .next (s.withRsp (some ⟨.errIllop, 0⟩)) := rfl

/-- A value the width cannot hold is refused (R73). -/
theorem exec_enc_range {wsel : BitVec 2} {v : Word} (hw : wsel ≠ 3) (hv : 64 ^ fieldWidth wsel ≤ v.toNat)
    (s : State) : exec (.enc wsel v) s = .next (s.withRsp (some ⟨.errRange, 0⟩)) := (if_neg hw).trans (if_pos hv)

/-- Every other value is answered with its packed encoding (R73). -/
theorem exec_enc_ok {wsel : BitVec 2} {v : Word} (hw : wsel ≠ 3) (hv : ¬64 ^ fieldWidth wsel ≤ v.toNat)
    (s : State) : exec (.enc wsel v) s = .next (s.withRsp (some ⟨.ok, pack (enc v.toNat (fieldWidth wsel))⟩)) :=
  (if_neg hw).trans (if_neg hv)

/-- The illegal width select is refused (R74). -/
theorem exec_dec_illop (x : Word) (s : State) : exec (.dec 3 x) s = .next (s.withRsp (some ⟨.errIllop, 0⟩)) := rfl

/-- Every field of a legal width is answered with its value (R74). -/
theorem exec_dec_ok {wsel : BitVec 2} (hw : wsel ≠ 3) (x : Word) (s : State) :
    exec (.dec wsel x) s = .next (s.withRsp (some ⟨.ok, BitVec.ofNat 32 (dec (unpack x (fieldWidth wsel)))⟩)) :=
  if_neg hw

/-- The value of a field of at most four characters fits the result (R71, R74). -/
theorem toNat_ofNat_dec {cs : List Byte} (h : cs.length ≤ 4) : (BitVec.ofNat 32 (dec cs)).toNat = dec cs := by
  have hlt : dec cs < 64 ^ 4 := (dec_lt cs).trans_le (Nat.pow_le_pow_right (by decide) h)
  exact Nat.mod_eq_of_lt (hlt.trans (by decide))

/-- Settles O12, by R73's chain: the bytes of the answer are those of the packed encoding. -/
theorem encAnswersByItsRule : Obligations.EncAnswersByItsRule := by
  unfold Obligations.EncAnswersByItsRule
  intro wsel v s
  split_ifs with hw hv
  · subst hw
    exact exec_enc_illop v s
  · exact exec_enc_range hw hv s
  · have hlen : (enc v.toNat (fieldWidth wsel)).length ≤ 4 := by simpa using fieldWidth_le hw
    refine ⟨_, exec_enc_ok hw hv s, ?_, fun i hi => ?_⟩
    · simpa [fieldWidth] using toNat_pack_lt hlen
    · exact toNat_pack_enc_byte v.toNat (fieldWidth_le hw) (by simp only [fieldWidth]; omega)

/-- Settles O13: the result holds the decoded field's whole value. -/
theorem decAnswersByItsRule : Obligations.DecAnswersByItsRule := by
  unfold Obligations.DecAnswersByItsRule
  intro wsel x s
  split_ifs with hw
  · subst hw
    exact exec_dec_illop x s
  · have hval := toNat_ofNat_dec (cs := unpack x (fieldWidth wsel)) (by simpa using fieldWidth_le hw)
    refine ⟨_, exec_dec_ok hw x s, ?_, ?_⟩
    · rw [hval]
      simpa [fieldWidth] using dec_lt (unpack x (fieldWidth wsel))
    · exact hval.trans (dec_unpack x (fieldWidth wsel))

end Sys2Proof.Machine

/-! SUPPORT. The checksum calculator (41_checksum.md): the values of the checksum byte and of the running residue, the
answer of each of the four operations, and the statements of the family. -/

namespace Sys2Proof.Machine

/-! ### The checksum byte and the running residue, as natural numbers -/

/-- R80: the sum does not overflow the byte. -/
theorem toNat_checksum (bs : List Byte) : (checksum bs).toNat = byteSum bs % 64 + 0x30 := by
  simp only [checksum, charOffset, BitVec.toNat_ofNat]
  omega

/-- R81, on all 8 bits. -/
theorem verify_eq_true_iff {bs : List Byte} {x : Byte} : verify bs x = true ↔ checksum bs = x := beq_iff_eq

/-- R84: six bits hold the residue. -/
theorem toNat_addResidue (acc : Residue) (b : Byte) : (addResidue acc b).toNat = (acc.toNat + b.toNat) % 64 :=
  BitVec.toNat_ofNat _ 6

/-- R85: the sum does not overflow the byte. -/
theorem toNat_sumByte (acc : Residue) : (sumByte acc).toNat = acc.toNat + 0x30 := by
  have hlt : acc.toNat < 64 := acc.isLt
  simp only [sumByte, charOffset, BitVec.toNat_ofNat]
  omega

/-- A byte is the checksum byte of a residue where it has its value (R86). -/
theorem sumByte_eq_iff {acc : Residue} {x : Byte} : sumByte acc = x ↔ acc.toNat + 0x30 = x.toNat := by
  rw [← BitVec.toNat_inj, toNat_sumByte]

/-! ### The four operations -/

theorem exec_csclr (s : State) : exec .csclr s = .next ((s.withCsacc 0).withRsp (some ⟨.ok, 0⟩)) := rfl

theorem exec_csadd (b : Byte) (s : State) :
    exec (.csadd b) s = .next ((s.withCsacc (addResidue s.csacc b)).withRsp (some ⟨.ok, 0⟩)) := rfl

theorem exec_csget (s : State) :
    exec .csget s = .next (s.withRsp (some ⟨.ok, (sumByte s.csacc).setWidth 32⟩)) := rfl

theorem exec_csvfy (x : Byte) (s : State) :
    exec (.csvfy x) s = .next (s.withRsp (some ⟨.ok, if sumByte s.csacc = x then 1 else 0⟩)) := rfl

/-- Settles O16, operation by operation, by the values of the residue and of its checksum byte. -/
theorem checksumOperationsAnswer : Obligations.ChecksumOperationsAnswer := by
  unfold Obligations.ChecksumOperationsAnswer
  intro s
  refine ⟨exec_csclr s, fun b => ⟨_, toNat_addResidue s.csacc b, exec_csadd b s⟩, ⟨_, ?_, exec_csget s⟩, fun x => ?_⟩
  · rw [BitVec.toNat_setWidth_of_le (by decide), toNat_sumByte]
  · simp only [exec_csvfy, sumByte_eq_iff]

/-- Settles O18: equal bytes are bytes of equal value. -/
theorem checksumAndVerifyByTheirRules : Obligations.ChecksumAndVerifyByTheirRules := by
  unfold Obligations.ChecksumAndVerifyByTheirRules
  refine fun bs => ⟨toNat_checksum bs, fun x => ?_⟩
  rw [verify_eq_true_iff, ← BitVec.toNat_inj, toNat_checksum, eq_comm, byteSum]

end Sys2Proof.Machine

/-! SUPPORT. The command classifier (42_classifier.md): a symbol's row in R90's table, the code of that row's kind, and
the statements of the family. -/

namespace Sys2Proof.Machine

/-! ### The row of a symbol -/

/-- The place of the first row whose two bytes are `s0` and `s1`, and the table's length where no row has them (R90). -/
def symbolPlace (s0 s1 : Byte) : Nat := symbolTable.findIdx fun r => r.s0 == s0 && r.s1 == s1

/-- The kind a place of R90's table stands for; past the last row it is Unknown. -/
def kindAt (k : Nat) : CommandKind := (symbolTable[k]?.map SymbolRow.kind).getD .unknown

/-- A symbol's two bytes as one number, the first received byte the higher one. -/
def symbolNumber (s0 s1 : Byte) : Nat := s0.toNat * 256 + s1.toNat

theorem symbolPlace_le (s0 s1 : Byte) : symbolPlace s0 s1 ≤ symbolTable.length := List.findIdx_le_length

theorem classifySymbol_eq_kindAt (s0 s1 : Byte) : classifySymbol s0 s1 = kindAt (symbolPlace s0 s1) := by
  rw [kindAt, symbolPlace, ← List.find?_eq_getElem?_findIdx, classifySymbol]
  split <;> simp [*]

/-- R64's codes count R90's rows from 0, and Unknown's is the number of rows. -/
theorem toNat_kindCode_kindAt : ∀ k ≤ symbolTable.length, (kindCode (kindAt k)).toNat = k := by decide

theorem toNat_kindCode_classifySymbol (s0 s1 : Byte) :
    (kindCode (classifySymbol s0 s1)).toNat = symbolPlace s0 s1 := by
  rw [classifySymbol_eq_kindAt, toNat_kindCode_kindAt _ (symbolPlace_le s0 s1)]

/-- Two symbols have one number only where they have the same bytes. -/
theorem symbolNumber_inj {s0 s1 t0 t1 : Byte} : symbolNumber s0 s1 = symbolNumber t0 t1 ↔ s0 = t0 ∧ s1 = t1 := by
  have hs : s1.toNat < 256 := s1.isLt
  have ht : t1.toNat < 256 := t1.isLt
  simp only [symbolNumber, ← BitVec.toNat_inj]
  omega

/-- The search for two bytes finds the row that the search for their number finds. -/
theorem symbolPlace_eq_idxOf (s0 s1 : Byte) :
    symbolPlace s0 s1 = (symbolTable.map fun r => symbolNumber r.s0 r.s1).idxOf (symbolNumber s0 s1) := by
  have hmatch : (fun r : SymbolRow => r.s0 == s0 && r.s1 == s1) =
      (· == symbolNumber s0 s1) ∘ fun r => symbolNumber r.s0 r.s1 := by
    funext r
    rw [Bool.eq_iff_iff]
    simp [symbolNumber_inj]
  rw [symbolPlace, hmatch, List.idxOf, List.findIdx_map]

/-! ### CLASS -/

theorem exec_classify (s0 s1 : Byte) (s : State) :
    exec (.classify s0 s1) s = .next (s.withRsp (some ⟨.ok, (kindCode (classifySymbol s0 s1)).setWidth 32⟩)) := rfl

/-- Settles O20: the code CLASS answers is the symbol's place in the table. -/
theorem classAnswersThePlaceInTheTable : Obligations.ClassAnswersThePlaceInTheTable := by
  unfold Obligations.ClassAnswersThePlaceInTheTable
  intro s0 s1 s
  rw [exec_classify, ← BitVec.ofNat_toNat, toNat_kindCode_classifySymbol, symbolPlace_eq_idxOf]
  rfl

end Sys2Proof.Machine

/-! SUPPORT. The block reader (43_block_reader.md): what an accepted RDSTART leaves in the counters, what the invariants
give of a finished read, the phase across one step, and the statements of the family about the five operations, the
transport failure and the phase table. -/

namespace Sys2Proof.Machine

/-! ### RDSTART -/

/-- No quantity of the shape exceeds its byte count (R95). -/
theorem shape_le_byteCount (first last cluster : Nat) {w : Nat} (hw : 0 < w) :
    (shape first last cluster w).sampleCount ≤ (shape first last cluster w).byteCount ∧
      (shape first last cluster w).fullBlocks ≤ (shape first last cluster w).byteCount ∧
      (shape first last cluster w).remainder ≤ (shape first last cluster w).byteCount :=
  ⟨Nat.le_mul_of_pos_right _ hw, Nat.div_le_self _ _, Nat.mod_le _ _⟩

/-- Every quantity of a shape that fits RAW fits its CSR (R6, R95). -/
theorem RdstartAccepted.shape_eq {wsel : BitVec 2} {c : BitVec 12} {a b : Word} {s t : State}
    (h : RdstartAccepted wsel c a b s t) :
    (⟨t.sampleCount.toNat, t.byteCount.toNat, t.fullBlocks.toNat, t.remainder.toNat⟩ : Shape) =
      shape a.toNat b.toNat c.toNat (fieldWidth wsel) := by
  have hw : 0 < fieldWidth wsel := by simp [fieldWidth]
  obtain ⟨hsc, hfb, hrem⟩ := shape_le_byteCount a.toNat b.toNat c.toNat hw
  have hval {n : Nat} (hn : n ≤ (shape a.toNat b.toNat c.toNat (fieldWidth wsel)).byteCount) :
      (BitVec.ofNat 32 n).toNat = n := Nat.mod_eq_of_lt ((hn.trans h.fits).trans_lt s.rawDepth.isLt)
  rw [h.arms]
  exact (Shape.mk.injEq ..).mpr ⟨hval hsc, hval le_rfl, hval hfb, hval hrem⟩

/-- An RDSTART with every guard met is answered with its armed state (R95). -/
theorem RdstartAccepted.exec_eq {wsel : BitVec 2} {c : BitVec 12} {a b : Word} {s t : State}
    (h : RdstartAccepted wsel c a b s t) : exec (.rdstart wsel c a b) s = .next t := by
  have hw : ¬2 ≤ wsel.toNat := by have := h.width; omega
  have hp : ¬(c = 0 ∨ b.toNat ≤ a.toNat) := not_or.mpr ⟨h.cluster, h.range.not_ge⟩
  simp only [exec, execRdstart, respond, if_neg hw, if_neg h.notActive, if_neg hp, if_neg h.fits.not_gt, h.arms]

/-- CW of a legal width select: 1 for three characters (R25, R59). -/
theorem armedStatus_cw_iff : ∀ {wsel : BitVec 2}, wsel.toNat < 2 → ((armedStatus wsel).cw = true ↔ wsel = 1) := by
  decide

/-- Settles O22, by R95's chain. -/
theorem rdstartFollowsItsRule : Obligations.RdstartFollowsItsRule := by
  unfold Obligations.RdstartFollowsItsRule
  intro wsel c a b s
  split_ifs with hw hph hp hfit
  · exact if_pos hw
  · exact (if_neg hw).trans (if_pos hph)
  · exact (if_neg hw).trans ((if_neg hph).trans (if_pos hp))
  · exact (if_neg hw).trans ((if_neg hph).trans ((if_neg hp).trans (if_pos hfit)))
  · obtain ⟨hc, hab⟩ := not_or.mp hp
    have hacc : RdstartAccepted wsel c a b s _ := ⟨by omega, hph, hc, by omega, not_lt.mp hfit, rfl⟩
    obtain ⟨hsc, hbc, hfb, hrem⟩ := (Shape.mk.injEq ..).mp hacc.shape_eq
    refine ⟨_, hacc.exec_eq, rfl, rfl, rfl, ?_, hsc, hbc, ?_, ?_, rfl, rfl, rfl, rfl, rfl, rfl, rfl, rfl,
      armedStatus_cw_iff hacc.width, rfl, rfl, rfl, rfl, rfl, rfl, rfl⟩
    · exact BitVec.toNat_setWidth_of_le (by decide)
    · rw [hfb, hbc]; rfl
    · rw [hrem, hbc]; rfl

/-! ### RDREG -/

/-- The CSRs in the order of their numbers (R24). -/
def csrFile (s : State) : List Word :=
  [statusWord s.status, s.startStep, s.endStep, s.cluster, s.sampleCount, s.byteCount, s.fullBlocks, s.remainder,
    s.pos, s.wp, s.faultCount, s.hdrLen, s.rawDepth]

/-- `csr[n]` is the entry `n` of the file, and there is none past its end (R24). -/
theorem csr_eq_getElem? (s : State) (n : Nat) : csr s n = (csrFile s)[n]? := by
  match n with
  | 0 | 1 | 2 | 3 | 4 | 5 | 6 | 7 | 8 | 9 | 10 | 11 | 12 => rfl
  | n + 13 => rfl

/-- Settles O23, by whether the CSR exists. -/
theorem rdregAnswersTheCsr : Obligations.RdregAnswersTheCsr := by
  unfold Obligations.RdregAnswersTheCsr
  intro n s
  split_ifs with hn
  · have hnone : csr s n.toNat = none := (csr_eq_getElem? s _).trans (List.getElem?_eq_none hn)
    simp only [exec, execRdreg, hnone, raise]
  · have hlt : n.toNat < (csrFile s).length := Nat.lt_succ_of_le (not_lt.mp hn)
    have hsome : (csrFile s)[n.toNat]? = some (csrFile s)[n.toNat] := List.getElem?_eq_getElem hlt
    exact ⟨_, exec_rdreg_of_csr ((csr_eq_getElem? s _).trans hsome), hsome⟩

/-! ### What the invariants give of a finished read -/

/-- A finished read has stored all its payload (R28, R38 e, R101). -/
theorem StateInv.wp_of_done {s : State} (h : StateInv s) (hd : s.status.ph = .done) : s.wp = s.byteCount := by
  have hp : s.status.ph ≠ .idle := by simp [hd]
  apply BitVec.eq_of_toNat_eq
  rw [(h.payload hp).1, payCount_eq, h.position.1 hd, State.streamLen, payBelow_streamLength, (h.byteCount_eq hp).1]

/-- A load inside BYTE_COUNT of a finished read succeeds (R11, R103, R104). -/
theorem StateInv.rawLoad_of_done {s : State} (h : StateInv s) (hd : s.status.ph = .done) {addr n : Nat}
    (hb : addr + n ≤ s.byteCount.toNat) : ∃ bs, rawLoad s addr n = .ok bs := by
  obtain ⟨-, -, -, -, hdepth⟩ := h.shape (by simp [hd])
  have hw : ∀ j < n, (rawGet s.raw (addr + j)).isSome = true := fun j hj =>
    h.rawWritten _ (by rw [h.wp_of_done hd]; omega)
  obtain ⟨bs, -, hbs⟩ := rawLoad_of_written hb (hb.trans hdepth) hw
  exact ⟨bs, hbs⟩

/-- The bytes of a sample lie inside BYTE_COUNT (R27, R103). -/
theorem StateInv.sample_le_byteCount {s : State} (h : StateInv s) (hp : s.status.ph ≠ .idle) {i : Nat}
    (hi : i < s.sampleCount.toNat) : i * sampleWidth s.status + sampleWidth s.status ≤ s.byteCount.toNat := by
  obtain ⟨-, hbc, -⟩ := h.shape hp
  rw [hbc, ← Nat.succ_mul]
  exact Nat.mul_le_mul_right _ hi

/-- Every block of a read has its fault bit (R6, R31). -/
theorem StateInv.faultBit_of_le {s : State} (h : StateInv s) (hp : s.status.ph ≠ .idle) {k : Nat}
    (hk : k ≤ s.fullBlocks.toNat) : faultBit s k = .ok (s.faults.contains k) := by
  obtain ⟨-, -, hfb, -, hdepth⟩ := h.shape hp
  exact faultBit_eq_ok.mpr ⟨by simp only [maxBlocks]; omega, rfl⟩

/-! ### RDSAMP, RDRAW, RDFLT -/

/-- A sample has at most four characters (R27, R59). -/
theorem sampleWidth_le (r : StatusReg) : sampleWidth r ≤ 4 := by
  have hcw := Bool.toNat_le r.cw
  simp only [sampleWidth]
  omega

/-- One character packed (R59). -/
theorem pack_singleton (b : Byte) : pack [b] = b.setWidth 32 := by simp [pack]

/-- A sample whose bytes can be loaded is answered with their value (R103). -/
theorem exec_rdsamp_ok {n : Word} {s : State} {bs : List Byte} (hd : s.status.ph = .done)
    (hn : ¬s.sampleCount.toNat ≤ n.toNat)
    (hl : rawLoad s (n.toNat * sampleWidth s.status) (sampleWidth s.status) = .ok bs) :
    exec (.rdsamp n) s = .next (s.withRsp (some ⟨.ok, BitVec.ofNat 32 (dec bs)⟩)) := by
  simp only [exec, execRdsamp, if_neg (not_not.mpr hd), if_neg hn, hl, respond]

/-- A byte that can be loaded is answered (R104). -/
theorem exec_rdraw_ok {a : Word} {s : State} {b : Byte} (hd : s.status.ph = .done)
    (ha : ¬s.byteCount.toNat ≤ a.toNat) (hl : rawLoad s a.toNat 1 = .ok [b]) :
    exec (.rdraw a) s = .next (s.withRsp (some ⟨.ok, b.setWidth 32⟩)) := by
  simp only [exec, execRdraw, if_neg (not_not.mpr hd), if_neg ha, hl, respond, pack_singleton]

/-- A fault bit that exists is answered (R105). -/
theorem exec_rdflt_ok {k : Word} {s : State} {f : Bool} (hd : s.status.ph = .done)
    (hk : ¬s.fullBlocks.toNat < k.toNat) (hf : faultBit s k.toNat = .ok f) :
    exec (.rdflt k) s = .next (s.withRsp (some ⟨.ok, if f then 1 else 0⟩)) := by
  have hbit : (BitVec.ofBool f).setWidth 32 = if f then 1 else 0 := by cases f <;> rfl
  simp only [exec, execRdflt, if_neg (not_not.mpr hd), if_neg hk, hf, respond, hbit]

/-- Settles O26, by R103's chain: the sample's bytes exist and their value fits the result. -/
theorem rdsampFollowsItsRule : Obligations.RdsampFollowsItsRule := by
  unfold Obligations.RdsampFollowsItsRule
  intro n s
  split_ifs with hd hn
  · exact if_pos hd
  · exact (if_neg hd).trans (if_pos hn)
  · intro hinv
    have hd : s.status.ph = .done := not_not.mp hd
    obtain ⟨bs, hl⟩ := hinv.rawLoad_of_done hd (hinv.sample_le_byteCount (by simp [hd]) (not_le.mp hn))
    obtain ⟨-, -, hlen, hbytes⟩ := rawLoad_eq_ok hl
    have hfour : bs.length ≤ 4 := hlen ▸ sampleWidth_le s.status
    exact ⟨bs, hlen, hbytes, hlen ▸ dec_lt bs, _, toNat_ofNat_dec hfour, exec_rdsamp_ok hd hn hl⟩

/-- Settles O27, by R104's chain: the byte exists. -/
theorem rdrawFollowsItsRule : Obligations.RdrawFollowsItsRule := by
  unfold Obligations.RdrawFollowsItsRule
  intro a s
  split_ifs with hd ha
  · exact if_pos hd
  · exact (if_neg hd).trans (if_pos ha)
  · intro hinv
    have hd : s.status.ph = .done := not_not.mp hd
    obtain ⟨bs, hl⟩ := hinv.rawLoad_of_done hd (addr := a.toNat) (n := 1) (not_le.mp ha)
    obtain ⟨-, -, hlen, hbytes⟩ := rawLoad_eq_ok hl
    obtain ⟨b, rfl⟩ := List.length_eq_one_iff.mp hlen
    exact ⟨b, hbytes 0 Nat.one_pos, exec_rdraw_ok hd ha hl⟩

/-- Settles O28, by R105's chain: the fault bit exists. -/
theorem rdfltFollowsItsRule : Obligations.RdfltFollowsItsRule := by
  unfold Obligations.RdfltFollowsItsRule
  intro k s
  split
  · next hd => exact if_pos hd
  · next hd =>
    split
    · next hk => exact (if_neg hd).trans (if_pos hk)
    · next hk =>
      intro hinv
      have hd : s.status.ph = .done := not_not.mp hd
      have hbit := hinv.faultBit_of_le (by simp [hd]) (not_lt.mp hk)
      simpa only [List.contains_iff_mem] using exec_rdflt_ok hd hk hbit

/-! ### The phase -/

/-- The kinds by the number on `rx_fkind`, 0 counting as ShortRead (R35, R66). -/
theorem ioKindOf_eq : ∀ k : BitVec 2, ioKindOf k =
    if k.toNat ≤ 1 then .shortRead else if k.toNat = 2 then .timeout else .closed := by decide

/-- Settles O36, by whether the phase is ACTIVE. -/
theorem rxFailEndsTheRead : Obligations.RxFailEndsTheRead := by
  unfold Obligations.RxFailEndsTheRead
  intro k s
  rw [rxFailStep_eq, ← ioKindOf_eq]
  split_ifs <;> rfl

/-- A failure makes an ACTIVE phase IOERR and keeps any other (R100). -/
theorem rxFailStep_ph (k : BitVec 2) (s : State) :
    (rxFailStep k s).status.ph = if s.status.ph = .active then .ioerr else s.status.ph := by
  rw [rxFailStep_eq]
  split_ifs <;> rfl

/-- Consuming a byte keeps the phase (R99). -/
theorem consumeByte_ph {s t : State} {r : Role} {b : Byte} (h : consumeByte s r b = .ok t) :
    t.status.ph = s.status.ph := by
  rcases consumeByte_eq_ok h with ⟨-, rfl⟩ | ⟨k, o, -, -, rfl⟩ | ⟨k, -, -, rfl⟩ | ⟨k, -, -, -, rfl⟩ <;> rfl

/-- An `rx` step makes the phase DONE at the last byte of the read, and keeps it before (R101). -/
theorem rxStep_ph {s t : State} {b : Byte} (h : rxStep b s = .next t) :
    t.status.ph = if s.pos.toNat + 1 = s.streamLen then .done else s.status.ph := by
  obtain ⟨-, u, hu, rfl⟩ := rxStep_eq_next h
  have hlen : u.streamLen = s.streamLen := by rw [consumeByte_frame hu]; rfl
  rw [State.withRsp_status, advance_eq, State.withStatus_status, hlen, apply_ite StatusReg.ph, doneStatus_ph,
    consumeByte_ph hu]

/-- A command makes the phase ACTIVE where it is an accepted RDSTART, and keeps it otherwise (R95, R108). -/
theorem runCommand_ph {w : CmdWord} {s t : State} (h : runCommand w s = .next t) :
    if opField w = 0x8 ∧ t.rsp = some ⟨.ok, 0⟩ then s.status.ph ≠ .active ∧ t.status.ph = .active
    else t.status.ph = s.status.ph := by
  rcases runCommand_eq_next h with ⟨r, -, hne, rfl⟩ | ⟨hop, v, rfl⟩ | ⟨hop, wsel, c, a, b, -, hacc⟩
  · rw [if_neg fun ⟨h8, hr⟩ => hne h8 (congrArg Response.status (Option.some.inj hr))]
    rfl
  · rcases hop with hop | hop <;> simp [hop]
  · simp [hop, hacc.arms, hacc.notActive]

/-- Settles O37, by the kind of the step. -/
theorem phaseTransitionsAreTheTable : Obligations.PhaseTransitionsAreTheTable := by
  unfold Obligations.PhaseTransitionsAreTheTable
  intro s t h
  obtain ⟨k, ws, bs, cs, hk, hstep⟩ := step_eq_next h
  rw [hk]
  cases k with
  | cmd w => exact runCommand_ph (s := s.withPorts ws bs cs) hstep
  | rx b =>
    obtain ⟨hph, hrx⟩ := hstep
    exact ⟨hph, by simpa [hph] using rxStep_ph hrx⟩
  | rxFail k => exact (show t = _ from hstep) ▸ rxFailStep_ph k (s.withPorts ws bs cs)
  | reset => simp [show t = _ from hstep]
  | idle => simp [show t = _ from hstep]

end Sys2Proof.Machine

/-! SUPPORT. Refusals are precise (60_exceptions.md R120). -/

namespace Sys2Proof.Machine

/-- Settles O29, by what a command word can do: where it writes CSACC or arms the reader it answers OK, and where it
changes the response output alone a result comes with status OK only. -/
theorem refusedCommandsChangeNothing : Obligations.RefusedCommandsChangeNothing := by
  unfold Obligations.RefusedCommandsChangeNothing
  intro w s t r h hrsp hne
  rcases runCommand_eq_next h with ⟨r', hr', -, rfl⟩ | ⟨-, v, rfl⟩ | ⟨-, wsel, c, a, b, -, hacc⟩
  · obtain rfl : r' = r := Option.some.inj hrsp
    exact ⟨hr'.resolve_left hne, rfl⟩
  · obtain rfl : ⟨.ok, 0⟩ = r := Option.some.inj hrsp
    exact absurd rfl hne
  · rw [hacc.arms] at hrsp
    obtain rfl : ⟨.ok, 0⟩ = r := Option.some.inj hrsp
    exact absurd rfl hne

end Sys2Proof.Machine

/-! SUPPORT. Reset (70_reset_and_hazards.md R140, R141): a cycle with `rst` gives a `reset` step whatever else it holds,
and what STATUS and the outputs are after one. -/

namespace Sys2Proof.Machine

/-! ### The step of a cycle with `rst` -/

/-- Reset is the next step of its cycle, whatever the host and the transport present in it (R141). -/
theorem nextStep_of_rst {s : State} {c : Cycle} {cs : List Cycle} (hc : s.cycles = c :: cs) (hr : c.rst = true) :
    nextStep s = (.reset, s.withPorts (if c.cmdValid then s.cmds.tail else s.cmds) s.stream cs) := by
  simp only [nextStep, hc, nextOfCycle, hr, if_true]

theorem step_of_rst {s : State} {c : Cycle} {cs : List Cycle} (hc : s.cycles = c :: cs) (hr : c.rst = true) :
    step s = .next (resetStep (s.withPorts (if c.cmdValid then s.cmds.tail else s.cmds) s.stream cs)) := by
  simp only [step, nextStep_of_rst hc hr]

/-! ### STATUS and the outputs after a reset step -/

/-- The fields `resetStep_status` gives make up the word 0 (R25). -/
@[simp] theorem statusWord_reset : statusWord ⟨.idle, .noError, false, false⟩ = 0 := by decide

@[simp] theorem rdPh_resetStep (s : State) : rdPh (resetStep s) = 0 := rfl

@[simp] theorem rxReady_resetStep (s : State) : rxReady (resetStep s) = false := rfl

@[simp] theorem rspValid_resetStep (s : State) : rspValid (resetStep s) = false := rfl

/-- Settles O10: the cycle's step is `reset`, and R140's table is what `resetStep` leaves in each element. -/
theorem resetLeavesTheResetTable : Obligations.ResetLeavesTheResetTable := by
  unfold Obligations.ResetLeavesTheResetTable
  intro s c cs hc hr
  refine ⟨_, step_of_rst hc hr, ?_⟩
  simp [cmdReady]

end Sys2Proof.Machine

/-! SUPPORT. The encoder against the decoder (30_encoding.md R55 to R59), and the statements of the family 'other' about
command words. -/

namespace Sys2Proof

/-- Decoding the encoder's word of a well-formed operation: the word's fields, operation by operation, are what the
decoder's row of that operation reads (R56, R58, R59). -/
theorem decode_encode {i : Instr} (h : i.WellFormed) : decode (encode i) = .ok i :=
  decode_eq_ok_iff.mpr ⟨h, by cases i <;> simp [encode]⟩

/-- Settles O1: `decode_encode`. -/
theorem decodeOfEncodeIsTheInstruction : Obligations.DecodeOfEncodeIsTheInstruction := by
  unfold Obligations.DecodeOfEncodeIsTheInstruction
  exact fun _ h => decode_encode h

/-- Settles O4: each of the words is the encoder's, of an operation with a legal width select. -/
theorem specWordsDecode : Obligations.SpecWordsDecode := by
  unfold Obligations.SpecWordsDecode
  exact ⟨decode_encode (i := .enc 1 5432) rfl, decode_encode (i := .dec 1 0x314468) rfl, decode_encode (i := .csclr) rfl,
    decode_encode (i := .csadd 0x30) rfl, decode_encode (i := .csget) rfl, decode_encode (i := .csvfy 0x50) rfl,
    decode_encode (i := .classify 0x4D 0x44) rfl, decode_encode (i := .rdstart 1 1 44 725) rfl,
    decode_encode (i := .rdreg 10) rfl, decode_encode (i := .rdsamp 21) rfl, decode_encode (i := .rdraw 110) rfl,
    decode_encode (i := .rdflt 2) rfl⟩

end Sys2Proof

/-! SUPPORT. The laws of the value codec (40_value_codec.md R72): `enc` and `dec` by their last character, the group of a
character inside the alphabet, and what `unpack` makes of a packed field. -/

namespace Sys2Proof.Machine

/-! ### The character of a group -/

/-- The character that stands for a group (R70). -/
def charOf (g : Nat) : Byte := BitVec.ofNat 8 (g + 0x30)

theorem toNat_charOf {g : Nat} (h : g < 64) : (charOf g).toNat = g + 0x30 := by
  simp only [charOf, BitVec.toNat_ofNat]
  omega

/-- The bytes of the alphabet (R63). -/
def InAlphabet (c : Byte) : Prop := 0x30 ≤ c.toNat ∧ c.toNat ≤ 0x6F

theorem inAlphabet_iff {cs : List Byte} : inAlphabet cs = true ↔ ∀ c ∈ cs, InAlphabet c := by
  simp [inAlphabet, InAlphabet]

theorem inAlphabet_charOf {g : Nat} (h : g < 64) : InAlphabet (charOf g) := by
  simp only [InAlphabet, toNat_charOf h]
  omega

/-- A group is below 64 (R71). -/
theorem group_lt (c : Byte) : (group c).toNat < 64 := (group c).isLt

/-- The group of a group's character is the group (R72 law 1 for one character). -/
theorem toNat_group_charOf {g : Nat} (h : g < 64) : (group (charOf g)).toNat = g := by
  rw [toNat_group, toNat_charOf h]
  omega

/-- Inside the alphabet the group is the byte less the offset (R71). -/
theorem toNat_group_of_inAlphabet {c : Byte} (h : InAlphabet c) : (group c).toNat + 0x30 = c.toNat := by
  obtain ⟨hlo, hhi⟩ := h
  rw [toNat_group]
  omega

/-- Inside the alphabet a byte is its group's character (R72 law 2 for one character). -/
theorem charOf_group {c : Byte} (h : InAlphabet c) : charOf (group c).toNat = c :=
  BitVec.eq_of_toNat_eq (by rw [toNat_charOf (group_lt c), toNat_group_of_inAlphabet h])

/-- A byte has the group of the byte inside the alphabet that differs from it by a multiple of 64 (R72 law 4). -/
theorem group_charOf_group (x : Byte) : group (charOf ((x.toNat + 256 - 0x30) % 64)) = group x := by
  apply BitVec.eq_of_toNat_eq
  rw [toNat_group_charOf (by omega), toNat_group]
  omega

/-! ### `enc` and `dec` by their last and their first character -/

@[simp] theorem enc_zero (v : Nat) : enc v 0 = [] := rfl

@[simp] theorem dec_nil : dec [] = 0 := rfl

/-- The last character of a field carries the lowest group, the others encode what is above it (R70). -/
theorem enc_succ (v w : Nat) : enc v (w + 1) = enc (v / 64) w ++ [charOf (v % 64)] := by
  rw [← List.reverse_inj, List.reverse_concat, reverse_enc, reverse_enc, List.range_succ_eq_map]
  simp [charOf, Nat.div_div_eq_div_mul, pow_succ']

/-- Fields with the same groups have the same value (R71). -/
theorem dec_congr {cs ds : List Byte} (h : cs.map group = ds.map group) : dec cs = dec ds := by
  rw [dec_eq_ofDigits, dec_eq_ofDigits, List.map_reverse, h, ← List.map_reverse]

/-- The first character of a field carries the highest group (R71). -/
theorem dec_cons (c : Byte) (cs : List Byte) : dec (c :: cs) = (group c).toNat * 64 ^ cs.length + dec cs := by
  simp only [dec_eq_ofDigits, List.reverse_cons, List.map_append, List.map_cons, List.map_nil, Nat.ofDigits_append,
    Nat.ofDigits_singleton, List.length_map, List.length_reverse]
  rw [Nat.add_comm, Nat.mul_comm]

/-! ### The laws -/

/-- R72 law 1: the value comes back from its encoding. -/
theorem dec_enc {v w : Nat} (h : v < 64 ^ w) : dec (enc v w) = v := by
  induction w generalizing v with
  | zero => simp only [pow_zero, Nat.lt_one_iff] at h; simp [h]
  | succ w ih =>
    have hv : v / 64 < 64 ^ w := Nat.div_lt_of_lt_mul (by rwa [← pow_succ'])
    rw [enc_succ, dec_concat, ih hv, toNat_group_charOf (Nat.mod_lt v (by decide))]
    omega

/-- R72 law 2: inside the alphabet, the field comes back from its value. -/
theorem enc_dec {cs : List Byte} (h : ∀ c ∈ cs, InAlphabet c) : enc (dec cs) cs.length = cs := by
  induction cs using List.reverseRecOn with
  | nil => rfl
  | append_singleton cs c ih =>
    have hg := group_lt c
    have hdiv : (dec cs * 64 + (group c).toNat) / 64 = dec cs := by omega
    have hmod : (dec cs * 64 + (group c).toNat) % 64 = (group c).toNat := by omega
    rw [List.length_append, List.length_singleton, enc_succ, dec_concat, hdiv, hmod,
      ih fun d hd => h d (List.mem_append_left _ hd), charOf_group (h c (by simp))]

/-- R72 law 3: `enc` answers characters of the alphabet. -/
theorem inAlphabet_of_mem_enc {v w : Nat} : ∀ c ∈ enc v w, InAlphabet c := by
  induction w generalizing v with
  | zero => simp
  | succ w ih =>
    intro c hc
    rw [enc_succ, List.mem_append, List.mem_singleton] at hc
    rcases hc with hc | rfl
    · exact ih c hc
    · exact inAlphabet_charOf (Nat.mod_lt v (by decide))

/-- Two-digit numbers to any base are ordered by the higher digit first. -/
theorem mul_add_lt_mul_add_iff {a b x y n : Nat} (hx : x < n) (hy : y < n) :
    a * n + x < b * n + y ↔ a < b ∨ a = b ∧ x < y := by
  rcases Nat.lt_trichotomy a b with h | rfl | h
  · have hmul : (a + 1) * n ≤ b * n := Nat.mul_le_mul_right n h
    simp only [h, true_or, iff_true]
    linarith
  · simp
  · have hmul : (b + 1) * n ≤ a * n := Nat.mul_le_mul_right n h
    simp only [h.not_gt, h.ne', false_and, or_self, iff_false, not_lt]
    linarith

/-- R72 law 6: inside the alphabet, fields of one length are ordered as their values. -/
theorem dec_lt_dec_iff {cs ds : List Byte} (hlen : cs.length = ds.length) (hcs : ∀ c ∈ cs, InAlphabet c)
    (hds : ∀ d ∈ ds, InAlphabet d) : dec cs < dec ds ↔ cs.map BitVec.toNat < ds.map BitVec.toNat := by
  induction cs generalizing ds with
  | nil => obtain rfl := List.length_eq_zero_iff.mp hlen.symm; simp
  | cons c cs ih =>
    match ds, hlen with
    | d :: ds, hlen =>
      have hlen : cs.length = ds.length := Nat.succ.inj hlen
      obtain ⟨hc, hcs⟩ := List.forall_mem_cons.mp hcs
      obtain ⟨hd, hds⟩ := List.forall_mem_cons.mp hds
      rw [dec_cons, dec_cons, hlen, mul_add_lt_mul_add_iff (hlen ▸ dec_lt cs) (dec_lt ds), ih hlen hcs hds,
        List.map_cons, List.map_cons, List.cons_lt_cons_iff, ← toNat_group_of_inAlphabet hc,
        ← toNat_group_of_inAlphabet hd, Nat.add_lt_add_iff_right, Nat.add_right_cancel_iff]

/-- Settles O15, law by law. -/
theorem codecLaws : Obligations.CodecLaws := by
  unfold Obligations.CodecLaws
  simp only [inAlphabet_iff]
  refine ⟨fun _ _ _ hv => dec_enc hv, fun _ _ => enc_dec, fun _ _ _ _ => inAlphabet_of_mem_enc, fun cs ds x => ?_,
    fun cs c => ?_, fun _ _ => dec_lt_dec_iff⟩
  · have hx := group_charOf_group x
    rw [charOf, Nat.add_comm] at hx
    exact dec_congr (by simp only [List.map_append, List.map_cons, List.map_nil, hx])
  · rw [dec_concat, toNat_group]

/-! ### DEC after ENC -/

/-- Up to four characters, unpacking what was packed gives them back (R59). -/
theorem unpack_pack {cs : List Byte} (h : cs.length ≤ 4) : unpack (pack cs) cs.length = cs := by
  rw [← List.reverse_inj, reverse_unpack]
  refine List.ext_getElem (by simp) fun j _ hj => BitVec.eq_of_toNat_eq ?_
  rw [List.getElem_map, List.getElem_range, toNat_byte, toNat_pack_byte h hj]

/-- Settles O14: the field is unpacked to the characters of the value, which decode to it. -/
theorem decAfterEncIsTheValue : Obligations.DecAfterEncIsTheValue := by
  unfold Obligations.DecAfterEncIsTheValue
  intro wsel v s hw hv
  have hfield : unpack (pack (enc v.toNat (fieldWidth wsel))) (fieldWidth wsel) = enc v.toNat (fieldWidth wsel) := by
    simpa using unpack_pack (cs := enc v.toNat (fieldWidth wsel)) (by simpa using fieldWidth_le hw)
  have hval : dec (enc v.toNat (fieldWidth wsel)) = v.toNat := dec_enc hv
  refine ⟨_, exec_enc_ok hw hv.not_ge s, fun t => ?_⟩
  rw [exec_dec_ok hw, hfield, hval, BitVec.ofNat_toNat, BitVec.setWidth_eq]

end Sys2Proof.Machine

/-! SUPPORT. The laws of the checksum (41_checksum.md R82) and the span of operations that computes it (R87). -/

namespace Sys2Proof.Machine

/-! ### The sum of a list of bytes -/

@[simp] theorem byteSum_nil : byteSum [] = 0 := rfl

@[simp] theorem byteSum_cons (b : Byte) (bs : List Byte) : byteSum (b :: bs) = b.toNat + byteSum bs := by
  simp [byteSum]

@[simp] theorem byteSum_append (bs cs : List Byte) : byteSum (bs ++ cs) = byteSum bs + byteSum cs := by
  simp [byteSum]

/-- Checksums are equal where the sums agree modulo 64 (R80). -/
theorem checksum_eq_iff {bs cs : List Byte} : checksum bs = checksum cs ↔ byteSum bs % 64 = byteSum cs % 64 := by
  rw [← BitVec.toNat_inj, toNat_checksum, toNat_checksum, Nat.add_right_cancel_iff]

/-- The low six bits of the bytes decide the sum modulo 64 (R82 law 5). -/
theorem byteSum_low_bits (bs : List Byte) :
    byteSum (bs.map fun b => BitVec.ofNat 8 (b.toNat % 64)) % 64 = byteSum bs % 64 := by
  induction bs with
  | nil => rfl
  | cons b bs ih =>
    rw [List.map_cons, byteSum_cons, byteSum_cons, BitVec.toNat_ofNat]
    omega

/-- Settles O19: each law is one about sums modulo 64. -/
theorem checksumLaws : Obligations.ChecksumLaws := by
  unfold Obligations.ChecksumLaws
  refine ⟨fun bs b => ?_, fun xs ys b c => ?_, fun bs cs h => ?_, fun bs => checksum_eq_iff.mpr (byteSum_low_bits bs)⟩
  · rw [toNat_checksum, toNat_checksum, byteSum_append, byteSum_cons, byteSum_nil]
    omega
  · simp only [checksum_eq_iff, byteSum_append, byteSum_cons, byteSum_nil]
    omega
  · rw [checksum, checksum, byteSum, byteSum, (h.map BitVec.toNat).sum_eq]

/-! ### A span -/

/-- The checksum byte of a residue is `checksum` of bytes whose sum has that residue (R80, R85). -/
theorem sumByte_eq_checksum {acc : Residue} {bs : List Byte} (h : acc.toNat = byteSum bs % 64) :
    sumByte acc = checksum bs := sumByte_eq_iff.mpr (by rw [toNat_checksum, h])

/-- The CSADDs of a list complete and add its sum to CSACC (R84). -/
theorem runOps_csadd (bs : List Byte) (s : State) :
    ∃ t, runOps (bs.map Instr.csadd) s = .next t ∧ t.csacc.toNat = (s.csacc.toNat + byteSum bs) % 64 := by
  induction bs generalizing s with
  | nil => exact ⟨s, rfl, (Nat.mod_eq_of_lt s.csacc.isLt).symm⟩
  | cons b bs ih =>
    obtain ⟨t, hrun, hacc⟩ := ih ((s.withCsacc (addResidue s.csacc b)).withRsp (some ⟨.ok, 0⟩))
    refine ⟨t, hrun, ?_⟩
    rw [hacc, State.withRsp_csacc, State.withCsacc_csacc, toNat_addResidue, byteSum_cons]
    omega

/-- Settles O17: after the CSADDs, CSACC is the residue of the list's sum. -/
theorem spanComputesTheChecksum : Obligations.SpanComputesTheChecksum := by
  unfold Obligations.SpanComputesTheChecksum
  intro s bs h0
  obtain ⟨t, hrun, hacc⟩ := runOps_csadd bs s
  have hsum : sumByte t.csacc = checksum bs := sumByte_eq_checksum (by simpa [h0] using hacc)
  refine ⟨t, hrun, ?_, fun x => ?_⟩
  · rw [exec_csget, hsum]
  · simp only [exec_csvfy, hsum, verify_eq_true_iff]

end Sys2Proof.Machine

/-! SUPPORT. The rows of the symbol table (42_classifier.md R90, R92). -/

namespace Sys2Proof.Machine

/-- A known kind is that of a row with the symbol's two bytes (R90). -/
theorem exists_row_of_known {s0 s1 : Byte} (h : classifySymbol s0 s1 ≠ .unknown) :
    ∃ r ∈ symbolTable, r.s0 = s0 ∧ r.s1 = s1 ∧ r.kind = classifySymbol s0 s1 := by
  cases hf : symbolTable.find? fun r => r.s0 == s0 && r.s1 == s1 with
  | none => exact absurd (by rw [classifySymbol, hf]) h
  | some r =>
    have hbytes : r.s0 = s0 ∧ r.s1 = s1 := by simpa using List.find?_some hf
    exact ⟨r, List.mem_of_find?_eq_some hf, hbytes.1, hbytes.2, by rw [classifySymbol, hf]⟩

/-- No two rows have the same kind (R90, R92). -/
theorem row_eq_of_kind_eq : ∀ r ∈ symbolTable, ∀ q ∈ symbolTable, r.kind = q.kind → r = q := by decide

/-- Settles O21: both symbols are the bytes of the one row with their kind. -/
theorem knownKindsHaveOneSymbol : Obligations.KnownKindsHaveOneSymbol := by
  unfold Obligations.KnownKindsHaveOneSymbol
  intro s0 s1 t0 t1 hs heq
  obtain ⟨r, hr, hr0, hr1, hrk⟩ := exists_row_of_known hs
  obtain ⟨q, hq, hq0, hq1, hqk⟩ := exists_row_of_known (heq ▸ hs)
  obtain rfl := row_eq_of_kind_eq r hr q hq (hrk.trans (heq.trans hqk.symm))
  exact ⟨hr0.symm.trans hq0, hr1.symm.trans hq1⟩

end Sys2Proof.Machine

/-! SUPPORT. Which event of a cycle is taken first (10_state.md R34, R35, 60_exceptions.md R125), and the statements of
the family 'other' about the step at the ports. -/

namespace Sys2Proof.Machine

/-! ### The two events of a cycle -/

theorem hostEvent_of_valid {c : Cycle} {s : State} {w : CmdWord} {ws : List CmdWord} (hv : c.cmdValid = true)
    (hw : s.cmds = w :: ws) : hostEvent c s = some (.cmd w, s.withPorts ws s.stream s.cycles) := by
  simp only [hostEvent, hv, hw]

theorem hostEvent_eq_none {c : Cycle} {s : State} (h : c.cmdValid = false ∨ s.cmds = []) : hostEvent c s = none := by
  cases he : hostEvent c s with
  | none => rfl
  | some p =>
    obtain ⟨w, ws, hv, hw, -⟩ := hostEvent_eq_some he
    rcases h with h | h
    · rw [hv] at h; cases h
    · rw [hw] at h; cases h

theorem transportEvent_of_fail {c : Cycle} {k : BitVec 2} (hk : c.rxFail = some k) (s : State) :
    transportEvent c s = some (.rxFail k, s) := by
  simp only [transportEvent, hk]

theorem transportEvent_of_byte {c : Cycle} {s : State} {b : Byte} {bs : List Byte} (hf : c.rxFail = none)
    (hv : c.rxValid = true) (hs : s.stream = b :: bs) (hp : s.status.ph = .active) :
    transportEvent c s = some (.rx b, s.withPorts s.cmds bs s.cycles) := by
  simp only [transportEvent, hf, hv, hs, rxReady, hp, decide_true, Bool.and_self]

theorem transportEvent_eq_none {c : Cycle} {s : State} (hf : c.rxFail = none)
    (h : c.rxValid = false ∨ s.stream = [] ∨ s.status.ph ≠ .active) : transportEvent c s = none := by
  cases he : transportEvent c s with
  | none => rfl
  | some p =>
    rcases transportEvent_eq_some he with ⟨k, hk, -⟩ | ⟨b, bs, -, hv, hp, hs, -⟩
    · rw [hf] at hk; cases hk
    · rcases h with h | h | h
      · rw [hv] at h; cases h
      · rw [hs] at h; cases h
      · exact absurd hp h

/-! ### The event taken first -/

section
variable {s t u : State} {c : Cycle} {cs : List Cycle} {k j : StepKind}

theorem nextStep_of_host (hc : s.cycles = c :: cs) (hr : c.rst = false) (hh : hostEvent c s = some (k, t))
    (ht : transportEvent c s = none) : nextStep s = (k, t.withCycles cs) := by
  simp [nextStep, hc, nextOfCycle, hr, hh, ht]

theorem nextStep_of_transport (hc : s.cycles = c :: cs) (hr : c.rst = false) (hh : hostEvent c s = none)
    (ht : transportEvent c s = some (k, t)) : nextStep s = (k, t.withCycles cs) := by
  simp [nextStep, hc, nextOfCycle, hr, hh, ht]

theorem nextStep_of_neither (hc : s.cycles = c :: cs) (hr : c.rst = false) (hh : hostEvent c s = none)
    (ht : transportEvent c s = none) : nextStep s = (.idle, s.withCycles cs) := by
  simp [nextStep, hc, nextOfCycle, hr, hh, ht]

/-- The host first: what is left of the cycle has the transport's event (R125 b). -/
theorem nextStep_of_hostFirst (hc : s.cycles = c :: cs) (hr : c.rst = false) (hh : hostEvent c s = some (k, t))
    (ht : transportEvent c s = some (j, u)) (hf : c.hostFirst = true) :
    nextStep s = (k, t.withCycles (c.withoutCmd :: cs)) := by
  simp [nextStep, hc, nextOfCycle, hr, hh, ht, hf]

/-- The transport first: what is left of the cycle has the host's command (R125 b). -/
theorem nextStep_of_transportFirst (hc : s.cycles = c :: cs) (hr : c.rst = false)
    (hh : hostEvent c s = some (j, u)) (ht : transportEvent c s = some (k, t)) (hf : c.hostFirst = false) :
    nextStep s = (k, t.withCycles (c.withoutRx :: cs)) := by
  simp [nextStep, hc, nextOfCycle, hr, hh, ht, hf]

theorem nextStep_of_no_cycle (hc : s.cycles = []) : nextStep s = (.idle, s) := by
  simp only [nextStep, hc]

end

/-! ### The step that an event gives -/

section
variable {s t : State}

theorem step_of_cmd {w : CmdWord} (h : nextStep s = (.cmd w, t)) : step s = runCommand w t := by
  simp only [step, h]

theorem step_of_rx {b : Byte} (h : nextStep s = (.rx b, t)) : step s = rxStep b t := by
  simp only [step, h]

theorem step_of_rxFail {k : BitVec 2} (h : nextStep s = (.rxFail k, t)) : step s = .next (rxFailStep k t) := by
  simp only [step, h]

theorem step_of_reset (h : nextStep s = (.reset, t)) : step s = .next (resetStep t) := by
  simp only [step, h]

theorem step_of_idle (h : nextStep s = (.idle, t)) : step s = .next (t.withRsp none) := by
  simp only [step, h]

end

theorem runCommand_of_ok {w : CmdWord} {i : Instr} (h : decode w = .ok i) (s : State) :
    runCommand w s = exec i s := by
  simp only [runCommand, h]

/-- Settles O5, by whether the transport has an event in the cycle. -/
theorem stepRunsThePresentedCommand : Obligations.StepRunsThePresentedCommand := by
  unfold Obligations.StepRunsThePresentedCommand
  intro s c cs w ws i hc hr hv hw hd
  have hh := hostEvent_of_valid hv hw
  refine ⟨fun ht => ?_, fun ht hf => ?_⟩
  · rw [step_of_cmd (nextStep_of_host hc hr hh ht), runCommand_of_ok hd]
    rfl
  · obtain ⟨p, hp⟩ := Option.ne_none_iff_exists'.mp ht
    rw [step_of_cmd (nextStep_of_hostFirst hc hr hh hp hf), runCommand_of_ok hd]
    rfl

/-- Presenting a command drives one cycle with it alone, and the step takes both away again (log 3). -/
theorem nextStep_presenting (s : State) (w : CmdWord) : nextStep (s.presenting w) = (.cmd w, s) := rfl

/-- Settles O6: the presented word is the next step's. -/
theorem presentedWordRunsNext : Obligations.PresentedWordRunsNext := by
  unfold Obligations.PresentedWordRunsNext
  intro w s
  rw [withFetchWord_eq_presenting, step_of_cmd (nextStep_presenting s w)]
  cases hd : decode w with
  | ok i => exact runCommand_of_ok hd s
  | error e => exact runCommand_of_error hd s

/-- Settles O7, by the transport's event. -/
theorem stepTakesTheTransportEvent : Obligations.StepTakesTheTransportEvent := by
  unfold Obligations.StepTakesTheTransportEvent
  intro s c cs hc hr hno
  have hh := hostEvent_eq_none hno
  refine ⟨fun k hk => ?_, fun b bs hf hv hs hp => ?_, fun hf hwait => ?_⟩
  · exact step_of_rxFail (nextStep_of_transport hc hr hh (transportEvent_of_fail hk s))
  · exact step_of_rx (nextStep_of_transport hc hr hh (transportEvent_of_byte hf hv hs hp))
  · exact step_of_idle (nextStep_of_neither hc hr hh (transportEvent_eq_none hf hwait))

/-- Settles O8: the next step is `idle`. -/
theorem waitingKeepsTheState : Obligations.WaitingKeepsTheState := by
  unfold Obligations.WaitingKeepsTheState
  exact fun s hc => step_of_idle (nextStep_of_no_cycle hc)

/-- Settles O9, by the transport's event. -/
theorem transportFirstLeavesTheCommand : Obligations.TransportFirstLeavesTheCommand := by
  unfold Obligations.TransportFirstLeavesTheCommand
  intro s c cs w ws hc hr hv hw hf
  have hh := hostEvent_of_valid hv hw
  refine ⟨fun k hk => ?_, fun b bs hfail hrx hs hp => ?_⟩
  · exact step_of_rxFail (nextStep_of_transportFirst hc hr hh (transportEvent_of_fail hk s) hf)
  · exact step_of_rx (nextStep_of_transportFirst hc hr hh (transportEvent_of_byte hfail hrx hs hp) hf)

end Sys2Proof.Machine

/-! SUPPORT. The STATUS word and the response word as numbers (10_state.md R25, 30_encoding.md R57, R60). -/

namespace Sys2Proof.Machine

/-- Bit vectors put together are a sum. -/
theorem toNat_append_eq_add {m n : Nat} (x : BitVec m) (y : BitVec n) :
    (x ++ y).toNat = x.toNat * 2 ^ n + y.toNat := by
  rw [BitVec.toNat_append, ← Nat.shiftLeft_add_eq_or_of_lt y.isLt, Nat.shiftLeft_eq]

/-- The STATUS word by the codes of its fields (R25). -/
theorem toNat_statusWord (r : StatusReg) :
    (statusWord r).toNat = r.ph.code.toNat + 4 * r.iok.code.toNat + 16 * r.anyf.toNat + 32 * r.cw.toNat := by
  simp only [statusWord, toNat_append_eq_add, BitVec.toNat_ofBool, BitVec.toNat_ofNat]
  omega

/-- Settles O24, by the codes of PH and IOK. -/
theorem statusWordCarriesItsFields : Obligations.StatusWordCarriesItsFields := by
  unfold Obligations.StatusWordCarriesItsFields
  intro r
  rw [toNat_statusWord]
  have hanyf : 16 * r.anyf.toNat = if r.anyf then 16 else 0 := by cases r.anyf <;> rfl
  have hcw : 32 * r.cw.toNat = if r.cw then 32 else 0 := by cases r.cw <;> rfl
  rw [hanyf, hcw]
  cases r.ph <;> cases r.iok <;> rfl

/-- Settles O25, by the status code. -/
theorem responseWordCarriesStatusAndResult : Obligations.ResponseWordCarriesStatusAndResult := by
  unfold Obligations.ResponseWordCarriesStatusAndResult
  intro r
  rw [Response.word, toNat_append_eq_add]
  cases r.status <;> rfl

end Sys2Proof.Machine

/-! SUPPORT. What a step writes of the response output, CSACC, FAULT and RAW (10_state.md R20, 20_memory.md R44), and the
statements of the family 'other' about them. -/

namespace Sys2Proof.Machine

/-! ### A command -/

section
variable {w : CmdWord} {s t : State}

theorem runCommand_rsp (h : runCommand w s = .next t) : t.rsp ≠ none := by
  rcases runCommand_eq_next h with ⟨r, -, -, rfl⟩ | ⟨-, v, rfl⟩ | ⟨-, wsel, c, a, b, -, hacc⟩
  · simp
  · simp
  · simp [hacc.arms]

theorem runCommand_csacc (h : runCommand w s = .next t) :
    t.csacc = s.csacc ∨ opField w = 0x3 ∨ opField w = 0x4 := by
  rcases runCommand_eq_next h with ⟨r, -, -, rfl⟩ | ⟨hop, v, rfl⟩ | ⟨-, wsel, c, a, b, -, hacc⟩
  · exact .inl rfl
  · exact .inr hop
  · exact .inl (by simp [hacc.arms])

theorem runCommand_faults (h : runCommand w s = .next t) :
    t.faults = s.faults ∨ (opField w = 0x8 ∧ t.rsp = some ⟨.ok, 0⟩) := by
  rcases runCommand_eq_next h with ⟨r, -, -, rfl⟩ | ⟨-, v, rfl⟩ | ⟨hop, wsel, c, a, b, -, hacc⟩
  · exact .inl rfl
  · exact .inl rfl
  · exact .inr ⟨hop, by simp [hacc.arms]⟩

theorem exec_raw {i : Instr} (h : exec i s = .next t) : t.raw = s.raw := by
  rcases exec_eq_next h with ⟨r, -, -, rfl⟩ | ⟨-, v, rfl⟩ | ⟨wsel, c, a, b, -, hacc⟩
  · rfl
  · rfl
  · simp [hacc.arms]

theorem runCommand_raw (h : runCommand w s = .next t) : t.raw = s.raw := by
  unfold runCommand at h
  split at h
  · exact exec_raw h
  · rw [raise_eq_next.mp h, State.withRsp_raw]

end

/-! ### A byte of the stream -/

@[simp] theorem advance_raw (s : State) (i : Nat) : (advance s i).raw = s.raw := by rw [advance_eq]; rfl

@[simp] theorem advance_wp (s : State) (i : Nat) : (advance s i).wp = s.wp := by rw [advance_eq]; rfl

@[simp] theorem advance_rdAcc (s : State) (i : Nat) : (advance s i).rdAcc = s.rdAcc := by rw [advance_eq]; rfl

@[simp] theorem advance_faults (s : State) (i : Nat) : (advance s i).faults = s.faults := by rw [advance_eq]; rfl

@[simp] theorem advance_faultCount (s : State) (i : Nat) : (advance s i).faultCount = s.faultCount := by
  rw [advance_eq]; rfl

@[simp] theorem advance_anyf (s : State) (i : Nat) : (advance s i).status.anyf = s.status.anyf := by
  rw [advance_eq]; split_ifs <;> rfl

/-- RAW and WP are as they were. -/
def KeepsRaw (s t : State) : Prop := t.raw = s.raw ∧ t.wp = s.wp

/-- FAULT, FAULT_COUNT and ANYF are as they were. -/
def KeepsFaults (s t : State) : Prop :=
  t.faults = s.faults ∧ t.faultCount = s.faultCount ∧ t.status.anyf = s.status.anyf

/-- What an `rx` step writes of RAW, RD_ACC and FAULT, by the role of its byte (R99). -/
theorem rxStep_writes {b : Byte} {s t : State} (h : rxStep b s = .next t) :
    ((s.roleAt s.pos.toNat = .hdr ∨ s.roleAt s.pos.toNat = .term) ∧ KeepsRaw s t ∧ KeepsFaults s t ∧
      t.rdAcc = s.rdAcc) ∨
    (∃ k o, s.roleAt s.pos.toNat = .pay k o ∧ KeepsFaults s t ∧ s.wp.toNat < s.rawDepth.toNat ∧
      t.raw = rawSet s.raw s.wp.toNat b ∧ t.wp = s.wp + 1 ∧ t.rdAcc = addResidue s.rdAcc b) ∨
    (∃ k, s.roleAt s.pos.toNat = .sum k ∧ KeepsRaw s t ∧ t.rdAcc = 0 ∧ b = sumByte s.rdAcc ∧ KeepsFaults s t) ∨
    (∃ k, s.roleAt s.pos.toNat = .sum k ∧ KeepsRaw s t ∧ t.rdAcc = 0 ∧ b ≠ sumByte s.rdAcc ∧
      t.faults = faultSet s.faults k ∧
      t.faultCount = (if s.faults.contains k then s.faultCount else s.faultCount + 1) ∧ t.status.anyf = true) := by
  obtain ⟨-, u, hu, rfl⟩ := rxStep_eq_next h
  rcases consumeByte_eq_ok hu with ⟨hr, rfl⟩ | ⟨k, o, hr, hlt, rfl⟩ | ⟨k, hr, hb, rfl⟩ | ⟨k, hr, hb, -, rfl⟩
  · exact .inl ⟨hr, by simp [KeepsRaw], by simp [KeepsFaults], by simp⟩
  · exact .inr (.inl ⟨k, o, hr, by simp [KeepsFaults], hlt, by simp⟩)
  · exact .inr (.inr (.inl ⟨k, hr, by simp [KeepsRaw], by simp, hb, by simp [KeepsFaults]⟩))
  · exact .inr (.inr (.inr ⟨k, hr, by simp [KeepsRaw], by simp, hb, by simp⟩))

section
variable {b : Byte} {s t : State}

/-- RAW and WP change at a payload byte alone, by the one store of the hardware (R44, R99). -/
theorem rxStep_raw_cases (h : rxStep b s = .next t) :
    (KeepsRaw s t ∧ (s.roleAt s.pos.toNat).isPay = false) ∨
    (∃ k o, s.roleAt s.pos.toNat = .pay k o ∧ s.wp.toNat < s.rawDepth.toNat ∧ t.raw = rawSet s.raw s.wp.toNat b ∧
      t.wp = s.wp + 1) := by
  rcases rxStep_writes h with ⟨hr, hraw, -⟩ | ⟨k, o, hr, -, hlt, hraw, hwp, -⟩ | ⟨k, hr, hraw, -⟩ | ⟨k, hr, hraw, -⟩
  · exact .inl ⟨hraw, by rcases hr with hr | hr <;> rw [hr] <;> rfl⟩
  · exact .inr ⟨k, o, hr, hlt, hraw, hwp⟩
  · exact .inl ⟨hraw, by rw [hr]; rfl⟩
  · exact .inl ⟨hraw, by rw [hr]; rfl⟩

/-- FAULT, FAULT_COUNT and ANYF change at a checksum byte that does not match alone (R99, R123). -/
theorem rxStep_faults_cases (h : rxStep b s = .next t) :
    KeepsFaults s t ∨
    ∃ k, s.roleAt s.pos.toNat = .sum k ∧ t.faults = faultSet s.faults k ∧
      t.faultCount = (if s.faults.contains k then s.faultCount else s.faultCount + 1) ∧ t.status.anyf = true := by
  rcases rxStep_writes h with ⟨-, -, hf, -⟩ | ⟨_, _, -, hf, -⟩ | ⟨_, -, -, -, -, hf⟩ | ⟨k, hr, -, -, -, hf⟩
  · exact .inl hf
  · exact .inl hf
  · exact .inl hf
  · exact .inr ⟨k, hr, hf⟩

/-- A byte sets fault bits and clears none (R99 b). -/
theorem mem_faults_of_rxStep (h : rxStep b s = .next t) {k : Nat} (hk : k ∈ s.faults) : k ∈ t.faults := by
  rcases rxStep_faults_cases h with ⟨hf, -⟩ | ⟨j, -, hf, -⟩
  · rwa [hf]
  · rw [hf]
    exact (mem_faultSet s.faults j k).mpr (.inr hk)

end

/-! ### The statements -/

/-- Settles O30, by the kind of the step. -/
theorem oneResponsePerCommand : Obligations.OneResponsePerCommand := by
  unfold Obligations.OneResponsePerCommand
  intro s t h
  obtain ⟨k, ws, bs, cs, hk, hstep⟩ := step_eq_next h
  rw [hk]
  cases k with
  | cmd w => exact runCommand_rsp hstep
  | rx b => exact (rxStep_frame hstep.2) ▸ rfl
  | rxFail k => simp [show t = _ from hstep, rxFailStep_eq]
  | reset => simp [show t = _ from hstep]
  | idle => simp [show t = _ from hstep]

/-- Settles O31, by what a host operation can do. -/
theorem hostOperationsKeepTheirFrame : Obligations.HostOperationsKeepTheirFrame := by
  unfold Obligations.HostOperationsKeepTheirFrame
  refine fun i s t h => ⟨?_, fun a => by rw [exec_raw h]⟩
  rcases exec_eq_next h with ⟨r, -, -, rfl⟩ | ⟨hi, v, rfl⟩ | ⟨wsel, c, a, b, rfl, hacc⟩
  · cases i with
    | rdstart wsel c a b => simp [frameOf]
    | _ => rfl
  · rcases hi with rfl | ⟨b, rfl⟩ <;> rfl
  · simp [frameOf, hacc.arms]

/-- Settles O39, by the kind of the step. -/
theorem onlyChecksumOperationsWriteCsacc : Obligations.OnlyChecksumOperationsWriteCsacc := by
  unfold Obligations.OnlyChecksumOperationsWriteCsacc
  intro s t h hne
  obtain ⟨k, ws, bs, cs, hk, hstep⟩ := step_eq_next h
  rw [hk]
  cases k with
  | cmd w => exact (runCommand_csacc (s := s.withPorts ws bs cs) hstep).resolve_left hne
  | rx b => exact hne (rxStep_frame hstep.2 ▸ rfl)
  | rxFail k => exact hne (by simp [show t = _ from hstep, rxFailStep_eq])
  | reset => simp [show t = _ from hstep]
  | idle => exact hne (by simp [show t = _ from hstep])

/-- Settles O41, by the kind of the step. -/
theorem onlyRxWritesRaw : Obligations.OnlyRxWritesRaw := by
  unfold Obligations.OnlyRxWritesRaw
  intro s t h a hne
  obtain ⟨k, ws, bs, cs, hk, hstep⟩ := step_eq_next h
  rw [hk]
  cases k with
  | cmd w => exact hne (by rw [runCommand_raw hstep, State.withPorts_raw])
  | rx b =>
    rcases rxStep_raw_cases hstep.2 with ⟨⟨hraw, -⟩, -⟩ | ⟨_, _, -, -, hraw, -⟩
    · exact absurd (by rw [hraw, State.withPorts_raw]) hne
    · rw [hraw] at hne ⊢
      have ha : a = s.wp.toNat := by
        by_contra ha
        exact hne (rawGet_rawSet_other s.raw s.wp.toNat a b ha)
      exact ⟨ha, ha ▸ rawGet_rawSet_same s.raw s.wp.toNat b⟩
  | rxFail k => exact hne (by simp [show t = _ from hstep, rxFailStep_eq])
  | reset => trivial
  | idle => exact hne (by simp [show t = _ from hstep])

/-- Settles O42, by the kind of the step. -/
theorem faultBitsStayUntilRdstartOrReset : Obligations.FaultBitsStayUntilRdstartOrReset := by
  unfold Obligations.FaultBitsStayUntilRdstartOrReset
  intro s t j h hj hne
  obtain ⟨k, ws, bs, cs, hk, hstep⟩ := step_eq_next h
  rw [hk]
  cases k with
  | cmd w => exact (runCommand_faults (s := s.withPorts ws bs cs) hstep).resolve_left fun heq => hne (heq ▸ hj)
  | rx b => exact hne (mem_faults_of_rxStep hstep.2 hj)
  | rxFail k => exact hne (by simp [show t = _ from hstep, rxFailStep_eq, hj])
  | reset => trivial
  | idle => exact hne (by simp [show t = _ from hstep, hj])

/-- Settles O49, by the kind of the step. -/
theorem stepKeepsRawCanonical : Obligations.StepKeepsRawCanonical := by
  unfold Obligations.StepKeepsRawCanonical
  intro s t hwf h
  obtain ⟨k, ws, bs, cs, hk, hstep⟩ := step_eq_next h
  cases k with
  | cmd w => rwa [runCommand_raw hstep]
  | rx b =>
    rcases rxStep_raw_cases hstep.2 with ⟨⟨hraw, -⟩, -⟩ | ⟨_, _, -, -, hraw, -⟩
    · rwa [hraw]
    · exact hraw ▸ Memory.wf_rawSet hwf s.wp.toNat b
  | rxFail k => simpa [show t = _ from hstep, rxFailStep_eq] using hwf
  | reset => rw [show t = _ from hstep, resetStep_raw]; exact Memory.wf_nil
  | idle => simpa [show t = _ from hstep] using hwf

end Sys2Proof.Machine

/-! SUPPORT. The layout of the stream by block (43_block_reader.md R96, R97): the role of each position of a block, and
the role that follows each role. -/

namespace Sys2Proof.Machine

/-! ### Positions of a block -/

/-- A position of a full block: its payload, its checksum byte, its terminator. -/
theorem role_fullBlock (h rem : Nat) {fb k j : Nat} (hk : k < fb) (hj : j < 66) :
    role h fb rem (h + 66 * k + j) = if j < 64 then .pay k j else if j = 64 then .sum k else .term := by
  have hdiv : (h + 66 * k + j - h) / 66 = k := by omega
  have hmod : (h + 66 * k + j - h) % 66 = j := by omega
  simp only [role, blockSpan, blockLen, Nat.reduceAdd, hdiv, hmod]
  rw [if_neg (by omega), if_pos (by omega)]

/-- A position of the final block: its payload, its checksum byte, then terminators. -/
theorem role_finalBlock (h fb rem j : Nat) :
    role h fb rem (h + 66 * fb + j) = if j < rem then .pay fb j else if j = rem then .sum fb else .term := by
  have hsub : h + 66 * fb + j - (h + 66 * fb) = j := by omega
  simp only [role, blockSpan, blockLen, Nat.reduceAdd, hsub]
  rw [if_neg (by omega), if_neg (by omega)]

/-- Settles O32, block by block. -/
theorem rolesFollowTheLayout : Obligations.RolesFollowTheLayout := by
  unfold Obligations.RolesFollowTheLayout
  intro h fb rem _
  refine ⟨fun i hi => if_pos hi, fun k hk => ⟨fun o ho => ?_, ?_, ?_⟩, fun o ho => ?_, ?_, ?_, ?_, rfl⟩
  · rw [role_fullBlock h rem hk (by omega), if_pos ho]
  · simpa using role_fullBlock h rem (j := 64) hk (by decide)
  · simpa using role_fullBlock h rem (j := 65) hk (by decide)
  · rw [role_finalBlock, if_pos ho]
  · simpa using role_finalBlock h fb rem rem
  · simpa [Nat.add_assoc] using role_finalBlock h fb rem (rem + 1)
  · simpa [Nat.add_assoc] using role_finalBlock h fb rem (rem + 2)

/-! ### The role after a role -/

/-- The first position of a block: its payload byte 0, or its checksum byte where it has no payload. -/
def BlockStart (h fb rem i : Nat) : Prop :=
  ∃ k, payBelow h fb rem i = 64 * k ∧ (role h fb rem i = .pay k 0 ∨ role h fb rem i = .sum k)

theorem payBelow_fullBlock (h rem : Nat) {fb k : Nat} (hk : k < fb) : payBelow h fb rem (h + 66 * k) = 64 * k := by
  have hs := payBelow_succ h fb rem (h + 66 * k)
  have hrole := role_fullBlock h rem (j := 0) hk (by decide)
  simp only [Nat.add_zero, Nat.zero_lt_succ, if_true] at hrole
  rw [hrole] at hs
  exact hs.1

theorem payBelow_finalBlock (h fb rem : Nat) : payBelow h fb rem (h + 66 * fb) = 64 * fb := by
  unfold payBelow
  split_ifs <;> omega

/-- Every block begins with its first payload byte, or with its checksum byte where it has no payload. -/
theorem blockStart_of_le (h rem : Nat) {fb k : Nat} (hk : k ≤ fb) : BlockStart h fb rem (h + 66 * k) := by
  rcases Nat.lt_or_eq_of_le hk with hk | rfl
  · exact ⟨k, payBelow_fullBlock h rem hk, .inl (by simpa using role_fullBlock h rem (j := 0) hk (by decide))⟩
  · refine ⟨k, payBelow_finalBlock h k rem, ?_⟩
    have hrole := role_finalBlock h k rem 0
    rw [Nat.add_zero] at hrole
    rw [hrole]
    split_ifs with h1 h2
    · exact .inl rfl
    · exact .inr rfl
    · omega

/-- What follows each role: a header byte or a terminator is followed by one of its kind or by the start of a block, a
payload byte by the next of its block or the block's checksum byte, and that one by a terminator (R97). -/
theorem role_succ (h fb rem i : Nat) :
    match role h fb rem i with
    | .hdr => role h fb rem (i + 1) = .hdr ∨ BlockStart h fb rem (i + 1)
    | .term => role h fb rem (i + 1) = .term ∨ BlockStart h fb rem (i + 1)
    | .pay k o => role h fb rem (i + 1) = .pay k (o + 1) ∨ role h fb rem (i + 1) = .sum k
    | .sum _ => role h fb rem (i + 1) = .term := by
  rcases role_cases h fb rem i with ⟨hi, hr⟩ | ⟨k, o, hk, ho, rfl, hr⟩ | ⟨k, hk, rfl, hr⟩ | ⟨k, hk, rfl, hr⟩ |
    ⟨o, ho, rfl, hr⟩ | ⟨rfl, hr⟩ | ⟨hi, hr⟩ <;> rw [hr]
  · rcases Nat.lt_or_eq_of_le (Nat.succ_le_of_lt hi) with hlt | rfl
    · exact .inl (if_pos hlt)
    · exact .inr (by simpa using blockStart_of_le (i + 1) rem (Nat.zero_le fb))
  · have hnext := role_fullBlock h rem (j := o + 1) hk (by omega)
    rw [← Nat.add_assoc] at hnext
    simp only [hnext]
    split_ifs with h1 h2
    · exact .inl rfl
    · exact .inr rfl
    · omega
  · simpa using role_fullBlock h rem (j := 65) hk (by decide)
  · exact .inr (by simpa [Nat.mul_succ, Nat.add_assoc] using blockStart_of_le h rem (Nat.succ_le_of_lt hk))
  · have hnext := role_finalBlock h fb rem (o + 1)
    rw [← Nat.add_assoc] at hnext
    simp only [hnext]
    split_ifs with h1 h2
    · exact .inl rfl
    · exact .inr rfl
    · omega
  · simpa [Nat.add_assoc] using role_finalBlock h fb rem (rem + 1)
  · obtain ⟨j, rfl⟩ := Nat.exists_eq_add_of_lt hi
    have hnext := role_finalBlock h fb rem (rem + j + 2)
    rw [if_neg (by omega), if_neg (by omega)] at hnext
    exact .inl (by rwa [show h + 66 * fb + rem + j + 1 + 1 = h + 66 * fb + (rem + j + 2) by omega])

/-- After a payload or a checksum byte the stream goes on (R96). -/
theorem succ_lt_streamLength {h fb rem i : Nat}
    (hr : (∃ k o, role h fb rem i = .pay k o) ∨ ∃ k, role h fb rem i = .sum k) : i + 1 < streamLength h fb rem := by
  unfold streamLength blockSpan blockLen
  rcases role_cases h fb rem i with ⟨_, h⟩ | ⟨_, _, _, _, _, _⟩ | ⟨_, _, _, _⟩ | ⟨_, _, _, h⟩ |
    ⟨_, _, _, _⟩ | ⟨_, _⟩ | ⟨_, h⟩
  · simp [h] at hr
  · omega
  · omega
  · simp [h] at hr
  · omega
  · omega
  · simp [h] at hr

end Sys2Proof.Machine

/-! SUPPORT. The `rx` step where the invariants hold (43_block_reader.md R99): it completes, and what it does at each
role, with the statements of the family 'other' about it. -/

namespace Sys2Proof.Machine

/-! ### Consuming a byte -/

theorem consumeByte_pay {s : State} (h : s.wp.toNat < s.rawDepth.toNat) (k o : Nat) (b : Byte) :
    consumeByte s (.pay k o) b =
      .ok ((s.withRaw (rawSet s.raw s.wp.toNat b) (s.wp + 1)).withRdAcc (addResidue s.rdAcc b)) := by
  simp only [consumeByte, rawStore_eq_ok.mpr ⟨h, rfl⟩]

theorem consumeByte_sum_match {s : State} {b : Byte} (h : b = sumByte s.rdAcc) (k : Nat) :
    consumeByte s (.sum k) b = .ok (s.withRdAcc 0) := if_pos h

theorem consumeByte_sum_mismatch {s : State} {k : Nat} {b : Byte} (h : b ≠ sumByte s.rdAcc) (hk : k < maxBlocks s) :
    consumeByte s (.sum k) b =
      .ok (((s.withFaults (faultSet s.faults k)
        (if s.faults.contains k then s.faultCount else s.faultCount + 1)).withStatus
          (faultedStatus s.status)).withRdAcc 0) := by
  simp only [consumeByte, if_neg h, recordFault_eq_ok.mpr ⟨hk, rfl⟩]

theorem rxStep_of_consumeByte {s u : State} {b : Byte} (hlt : s.pos.toNat < s.streamLen)
    (hu : consumeByte s (s.roleAt s.pos.toNat) b = .ok u) :
    rxStep b s = .next ((advance u s.pos.toNat).withRsp none) := by
  simp only [rxStep, if_pos hlt, hu]

/-- POS as the next position's word (R99). -/
theorem ofNat_toNat_succ (p : Word) : BitVec.ofNat 32 (p.toNat + 1) = p + 1 := by
  simp [BitVec.ofNat_add]

/-- The next word, short of a wrap. -/
theorem toNat_succ {p : Word} (h : p.toNat + 1 < 2 ^ 32) : (p + 1).toNat = p.toNat + 1 := BitVec.toNat_add_of_lt h

/-- Before the last byte, moving on moves POS alone (R99). -/
theorem advance_of_ne {s : State} {i : Nat} (h : i + 1 ≠ s.streamLen) :
    advance s i = s.withPos (BitVec.ofNat 32 (i + 1)) := if_neg h

/-! ### What the invariants give at a position -/

section
variable {s : State}

theorem ne_idle_of_active (hp : s.status.ph = .active) : s.status.ph ≠ .idle := by simp [hp]

/-- Every block of a read has an entry in FAULT (R6, R31). -/
theorem StateInv.lt_maxBlocks (h : StateInv s) (hp : s.status.ph ≠ .idle) {k : Nat} (hk : k ≤ s.fullBlocks.toNat) :
    k < maxBlocks s := (faultBit_eq_ok.mp (h.faultBit_of_le hp hk)).1

/-- The write pointer at a payload byte lies inside RAW (R46). -/
theorem StateInv.wp_lt_rawDepth (h : StateInv s) (hp : s.status.ph ≠ .idle) {k o : Nat}
    (hr : s.roleAt s.pos.toNat = .pay k o) : s.wp.toNat < s.rawDepth.toNat := by
  obtain ⟨-, -, -, -, hdepth⟩ := h.shape hp
  exact (h.wp_of_pay hp hr).2.trans_le hdepth

/-- The fault bit of a block is clear before its checksum byte (R99 e). -/
theorem StateInv.not_mem_faults (h : StateInv s) {k : Nat} (hr : s.roleAt s.pos.toNat = .sum k) : k ∉ s.faults := by
  intro hk
  have hpos := (h.faults.2 k hk).2
  rw [(sumPosition_of_role hr).2] at hpos
  exact lt_irrefl _ hpos

/-- Where the invariants hold, every byte can be consumed (R17). -/
theorem StateInv.exists_consumeByte (h : StateInv s) (hp : s.status.ph = .active) (b : Byte) :
    ∃ u, consumeByte s (s.roleAt s.pos.toNat) b = .ok u := by
  have hne := ne_idle_of_active hp
  cases hr : s.roleAt s.pos.toNat with
  | hdr => exact ⟨s, rfl⟩
  | term => exact ⟨s, rfl⟩
  | pay k o => exact ⟨_, consumeByte_pay (h.wp_lt_rawDepth hne hr) k o b⟩
  | sum k =>
    by_cases hb : b = sumByte s.rdAcc
    · exact ⟨_, consumeByte_sum_match hb k⟩
    · exact ⟨_, consumeByte_sum_mismatch hb (h.lt_maxBlocks hne (sumPosition_of_role hr).1)⟩

/-- Where the invariants hold, every `rx` step completes (R17). -/
theorem StateInv.exists_rxStep (h : StateInv s) (hp : s.status.ph = .active) (b : Byte) :
    ∃ t, rxStep b s = .next t := by
  obtain ⟨u, hu⟩ := h.exists_consumeByte hp b
  exact ⟨_, rxStep_of_consumeByte (h.position.2 (.inl hp)) hu⟩

/-- A payload or a checksum byte is not the last one: the `rx` step moves POS alone after it (R96). -/
theorem rxStep_of_block_byte {u : State} {b : Byte} (hlt : s.pos.toNat < s.streamLen)
    (hr : (∃ k o, s.roleAt s.pos.toNat = .pay k o) ∨ ∃ k, s.roleAt s.pos.toNat = .sum k)
    (hu : consumeByte s (s.roleAt s.pos.toNat) b = .ok u) :
    rxStep b s = .next ((u.withPos (s.pos + 1)).withRsp none) := by
  have hlen : u.streamLen = s.streamLen := by rw [consumeByte_frame hu]; rfl
  have hnext : s.pos.toNat + 1 < s.streamLen := succ_lt_streamLength hr
  rw [rxStep_of_consumeByte hlt hu, advance_of_ne (hlen ▸ hnext.ne), ofNat_toNat_succ]

end

/-! ### The statements, role by role -/

/-- Settles O33: nothing is consumed, and `advance` does the rest. -/
theorem rxDiscardsHeaderAndTerminators : Obligations.RxDiscardsHeaderAndTerminators := by
  unfold Obligations.RxDiscardsHeaderAndTerminators
  intro b s h hp hr
  have hu : consumeByte s (s.roleAt s.pos.toNat) b = .ok s := by rcases hr with hr | hr <;> rw [hr] <;> rfl
  rw [rxStep_of_consumeByte (h.position.2 (.inl hp)) hu, advance_eq, ofNat_toNat_succ]

/-- Settles O34: the store at WP, which is the payload byte's address. -/
theorem rxStoresPayload : Obligations.RxStoresPayload := by
  unfold Obligations.RxStoresPayload
  intro b s k o h hp hr
  have hne := ne_idle_of_active hp
  obtain ⟨hwp, -⟩ := h.wp_of_pay hne hr
  have hu := hr ▸ consumeByte_pay (h.wp_lt_rawDepth hne hr) k o b
  have hrx := rxStep_of_block_byte (h.position.2 (.inl hp)) (.inl ⟨k, o, hr⟩) hu
  rw [← hwp]
  exact ⟨rfl, _, hrx, rawGet_rawSet_same .., fun a ha => rawGet_rawSet_other _ _ a _ ha, toNat_addResidue .., rfl⟩

/-- Settles O35, by whether the byte is RD_ACC's checksum byte. -/
theorem rxChecksTheSumByte : Obligations.RxChecksTheSumByte := by
  unfold Obligations.RxChecksTheSumByte
  intro b s k h hp hr
  have hlt := h.position.2 (.inl hp)
  have hk := h.not_mem_faults hr
  refine ⟨hk, ?_⟩
  split_ifs with hb
  · have hmatch := hr ▸ consumeByte_sum_match (sumByte_eq_iff.mpr hb.symm).symm k
    exact rxStep_of_block_byte hlt (.inr ⟨k, hr⟩) hmatch
  · have hmax := h.lt_maxBlocks (ne_idle_of_active hp) (sumPosition_of_role hr).1
    have hmis := hr ▸ consumeByte_sum_mismatch (fun heq => hb (sumByte_eq_iff.mp heq.symm).symm) hmax
    rw [if_neg (by simpa using hk)] at hmis
    exact ⟨_, mem_faultSet s.faults k, rxStep_of_block_byte hlt (.inr ⟨k, hr⟩) hmis⟩

end Sys2Proof.Machine

/-! SUPPORT. The invariants of the state across one step (10_state.md R38), and the statements of the family 'other' about
`StateInv`. -/

namespace Sys2Proof.Machine

/-! ### Reset -/

/-- The free parameters meet R6's constraint (log 1). -/
theorem Config.params_legal : Params.Legal Config.params := by
  have hdepth := Config.rawDepthIndex.isLt
  have hhdr := Config.hdrLenIndex.isLt
  simp only [Params.Legal, Config.params]
  omega

/-- Legal parameters fit their CSRs (R6, R30). -/
theorem resetOf_params {p : Params} (h : p.Legal) :
    (⟨(State.resetOf p).hdrLen.toNat, (State.resetOf p).rawDepth.toNat⟩ : Params) = p := by
  obtain ⟨-, hbound⟩ := h
  exact (Params.mk.injEq ..).mpr ⟨Nat.mod_eq_of_lt (by omega), Nat.mod_eq_of_lt (by omega)⟩

/-- Settles O11: the values are `resetOf`'s, and the parameters are `Config.params`. -/
theorem resetStateHoldsTheResetValues : Obligations.ResetStateHoldsTheResetValues := by
  unfold Obligations.ResetStateHoldsTheResetValues
  refine ⟨rfl, rfl, statusWord_reset, rfl, rfl, rfl, rfl, rfl, rfl, rfl, rfl, rfl, rfl, rfl, rfl, ?_⟩
  exact (resetOf_params Config.params_legal).symm ▸ Config.params_legal

/-- A reset state with legal parameters meets the invariants (R38, R39). -/
theorem StateInv.of_resetOf {p : Params} (h : p.Legal) : StateInv (State.resetOf p) where
  params := (resetOf_params h).symm ▸ h
  idleClear _ := ⟨rfl, rfl, rfl, rfl, rfl, rfl, rfl, rfl, rfl, rfl, rfl, rfl⟩
  operands hne := absurd rfl hne
  shape hne := absurd rfl hne
  position := ⟨nofun, nofun⟩
  payload hne := absurd rfl hne
  faultCount := ⟨rfl, nofun, fun hne => absurd rfl hne⟩
  faults := ⟨.nil, nofun⟩
  errorKind := ⟨fun hne => absurd rfl hne, nofun⟩
  rawWf := Memory.wf_nil
  rawInside := nofun
  rawWritten := nofun

/-- Settles O44: `State.reset` is a reset state with legal parameters. -/
theorem invHoldsAfterReset : Obligations.InvHoldsAfterReset := by
  unfold Obligations.InvHoldsAfterReset
  exact StateInv.of_resetOf Config.params_legal

/-- The `reset` step is to the reset state of the same parameters, but for the ports (R140). -/
theorem StateInv.of_resetStep {s : State} (h : StateInv s) : StateInv (resetStep s) := by
  have heq : resetStep s =
      (State.resetOf ⟨s.hdrLen.toNat, s.rawDepth.toNat⟩).withPorts s.cmds s.stream s.cycles := by
    simp [resetStep, State.resetOf, State.withPorts]
  rw [heq]
  exact (StateInv.of_resetOf h.params).withPorts _ _ _

/-! ### RDSTART -/

theorem sampleWidth_armedStatus : ∀ {wsel : BitVec 2}, wsel.toNat < 2 →
    sampleWidth (armedStatus wsel) = fieldWidth wsel := by decide

/-- An accepted RDSTART begins a read that meets the invariants (R38, R95). -/
theorem StateInv.of_rdstart {wsel : BitVec 2} {c : BitVec 12} {a b : Word} {s t : State} (h : StateInv s)
    (hacc : RdstartAccepted wsel c a b s t) : StateInv t := by
  obtain ⟨hsc, hbc, hfb, hrem⟩ := (Shape.mk.injEq ..).mp hacc.shape_eq
  have hcl : (c.setWidth 32).toNat = c.toNat := BitVec.toNat_setWidth_of_le (by decide)
  have hc0 : c.toNat ≠ 0 := fun h0 => hacc.cluster (BitVec.eq_of_toNat_eq h0)
  have hfit := hacc.fits
  change _ * _ ≤ _ at hfit
  rw [← hbc] at hfit
  have hw := sampleWidth_armedStatus hacc.width
  rw [hacc.arms] at hsc hbc hfb hrem hfit ⊢
  simp only [State.withRsp_sampleCount, State.withRsp_byteCount, State.withRsp_fullBlocks, State.withRsp_remainder]
    at hsc hbc hfb hrem hfit
  refine StateInv.withRsp ?_ _
  exact {
    params := h.params
    idleClear := nofun
    operands := fun _ => ⟨hacc.range, by rw [armReader_cluster, hcl]; omega, by rw [armReader_cluster, hcl]; omega⟩
    shape := fun _ => by
      rw [hsc, hbc, hfb, hrem, armReader_status, hw, armReader_cluster, hcl]
      exact ⟨rfl, rfl, rfl, rfl, hbc ▸ hfit⟩
    position := ⟨nofun, fun _ => Nat.succ_pos _⟩
    payload := fun _ => ⟨by simp [payCount], by simp⟩
    faultCount := by simp
    faults := by simp
    errorKind := by simp
    rawWf := h.rawWf
    rawInside := h.rawInside
    rawWritten := nofun }

/-- A command keeps the invariants. -/
theorem StateInv.of_runCommand {w : CmdWord} {s t : State} (h : StateInv s) (hrun : runCommand w s = .next t) :
    StateInv t := by
  rcases runCommand_eq_next hrun with ⟨r, -, -, rfl⟩ | ⟨-, v, rfl⟩ | ⟨-, wsel, c, a, b, -, hacc⟩
  · exact h.withRsp _
  · exact (h.withCsacc v).withRsp _
  · exact h.of_rdstart hacc

/-! ### A transport failure -/

/-- A failure keeps the invariants: an ACTIVE read has a byte left, as a failed one must have (R38 d, R100). -/
theorem StateInv.of_rxFailStep {s : State} (h : StateInv s) (k : BitVec 2) : StateInv (rxFailStep k s) := by
  unfold rxFailStep
  split
  · next hp =>
    have hne := ne_idle_of_active hp
    have hkind : ∀ k : BitVec 2, ioKindOf k ≠ .noError := by decide
    refine StateInv.withRsp ?_ none
    exact {
      params := h.params
      idleClear := nofun
      operands := fun _ => h.operands hne
      shape := fun _ => h.shape hne
      position := ⟨nofun, fun _ => h.position.2 (.inl hp)⟩
      payload := fun _ => h.payload hne
      faultCount := h.faultCount
      faults := h.faults
      errorKind := ⟨fun _ => rfl, fun _ => hkind k⟩
      rawWf := h.rawWf
      rawInside := h.rawInside
      rawWritten := h.rawWritten }
  · exact h.withRsp none

/-! ### A byte of the stream -/

/-- At a payload byte `64k + o` payload positions lie below, and it adds one (R38 e). -/
theorem payCount_succ_of_pay {s : State} {i k o : Nat} (hr : s.roleAt i = .pay k o) :
    payCount s i = 64 * k + o ∧ payCount s (i + 1) = 64 * k + o + 1 := by
  have hs := payBelow_succ s.hdrLen.toNat s.fullBlocks.toNat s.remainder.toNat i
  change match s.roleAt i with | .pay k o => _ | _ => _ at hs
  rw [hr] at hs
  simpa only [payCount_eq] using hs

/-- No other byte adds to the payload positions (R38 e). -/
theorem payCount_succ_of_not_pay {s : State} {i : Nat} (hr : (s.roleAt i).isPay = false) :
    payCount s (i + 1) = payCount s i := by
  have hs := payBelow_succ s.hdrLen.toNat s.fullBlocks.toNat s.remainder.toNat i
  change match s.roleAt i with | .pay k o => _ | _ => _ at hs
  rw [payCount_eq, payCount_eq]
  cases h : s.roleAt i with
  | pay k o => rw [h] at hr; cases hr
  | _ => rw [h] at hs; exact hs

/-- An ascending list of indices up to `n` has at most `n + 1` of them. -/
theorem length_le_of_ascending {ks : List Nat} {n : Nat} (h : ks.Pairwise (· < ·)) (hn : ∀ k ∈ ks, k ≤ n) :
    ks.length ≤ n + 1 := by
  have hsub : ks ⊆ List.range (n + 1) := fun k hk => List.mem_range.mpr (Nat.lt_succ_of_le (hn k hk))
  simpa using (List.Nodup.subperm (h.imp Nat.ne_of_lt) hsub).length_le

section
variable {b : Byte} {s t : State}

/-- An `rx` step keeps IOK and CW (R99). -/
theorem rxStep_iok_cw (h : rxStep b s = .next t) : t.status.iok = s.status.iok ∧ t.status.cw = s.status.cw := by
  obtain ⟨-, u, hu, rfl⟩ := rxStep_eq_next h
  have hu' : u.status.iok = s.status.iok ∧ u.status.cw = s.status.cw := by
    rcases consumeByte_eq_ok hu with ⟨-, rfl⟩ | ⟨k, o, -, -, rfl⟩ | ⟨k, -, -, rfl⟩ | ⟨k, -, -, -, rfl⟩ <;>
      exact ⟨rfl, rfl⟩
  rw [State.withRsp_status, advance_eq, State.withStatus_status]
  split_ifs <;> exact hu'

/-- WP counts the payload positions consumed (R38 e). -/
theorem StateInv.rxStep_wp (h : StateInv s) (hp : s.status.ph = .active) (hrx : rxStep b s = .next t) :
    t.wp.toNat = payCount s (s.pos.toNat + 1) ∧ t.wp.toNat ≤ s.byteCount.toNat := by
  have hne := ne_idle_of_active hp
  rcases rxStep_raw_cases hrx with ⟨⟨-, hwp⟩, hpay⟩ | ⟨k, o, hr, -, -, hwp⟩
  · rw [hwp, payCount_succ_of_not_pay hpay]
    exact h.payload hne
  · obtain ⟨hwpk, hlt⟩ := h.wp_of_pay hne hr
    rw [hwp, toNat_succ (by omega), (payCount_succ_of_pay hr).2, ← hwpk]
    exact ⟨rfl, hlt⟩

/-- A payload byte moves WP by one (R99). -/
theorem StateInv.rxStep_wp_of_pay {k o : Nat} (h : StateInv s) (hp : s.status.ph = .active)
    (hrx : rxStep b s = .next t) (hr : s.roleAt s.pos.toNat = .pay k o) : t.wp.toNat = s.wp.toNat + 1 := by
  rw [(h.rxStep_wp hp hrx).1, (payCount_succ_of_pay hr).2, (h.wp_of_pay (ne_idle_of_active hp) hr).1]

/-- RAW stays canonical, inside RAW_DEPTH and written below WP (R40, R44). -/
theorem StateInv.rxStep_raw (h : StateInv s) (hp : s.status.ph = .active) (hrx : rxStep b s = .next t) :
    Memory.wf t.raw = true ∧ (∀ c ∈ t.raw, c.1 < s.rawDepth.toNat) ∧
      ∀ a < t.wp.toNat, (rawGet t.raw a).isSome = true := by
  rcases rxStep_raw_cases hrx with ⟨⟨hraw, hwp⟩, -⟩ | ⟨k, o, hr, hlt, hraw, -⟩
  · rw [hraw, hwp]
    exact ⟨h.rawWf, h.rawInside, h.rawWritten⟩
  · rw [hraw, h.rxStep_wp_of_pay hp hrx hr]
    refine ⟨Memory.wf_rawSet h.rawWf _ _, fun c hc => ?_, fun a ha => ?_⟩
    · rcases mem_rawSet hc with rfl | hc
      · exact hlt
      · exact h.rawInside c hc
    · rw [rawGet_rawSet]
      split_ifs with heq
      · rfl
      · exact h.rawWritten a (by omega)

/-- FAULT stays ascending and set only for blocks whose checksum byte has been consumed (R31, R99 e). -/
theorem StateInv.rxStep_faults (h : StateInv s) (hrx : rxStep b s = .next t) :
    t.faults.Pairwise (· < ·) ∧ ∀ k ∈ t.faults, k ≤ s.fullBlocks.toNat ∧ sumPosition s k < s.pos.toNat + 1 := by
  obtain ⟨hasc, hmem⟩ := h.faults
  have hlater : ∀ k ∈ s.faults, k ≤ s.fullBlocks.toNat ∧ sumPosition s k < s.pos.toNat + 1 :=
    fun k hk => ⟨(hmem k hk).1, (hmem k hk).2.trans (Nat.lt_succ_self _)⟩
  rcases rxStep_faults_cases hrx with ⟨hf, -⟩ | ⟨k, hr, hf, -⟩
  · rw [hf]
    exact ⟨hasc, hlater⟩
  · obtain ⟨hk, hpos⟩ := sumPosition_of_role hr
    rw [hf]
    refine ⟨faultSet_pairwise hasc k, fun j hj => ?_⟩
    rcases (mem_faultSet _ _ _).mp hj with rfl | hj
    · exact ⟨hk, hpos ▸ Nat.lt_succ_self _⟩
    · exact hlater j hj

/-- FAULT_COUNT counts FAULT, without wrap, and ANYF says whether there is one (R29, R38 f). -/
theorem StateInv.rxStep_faultCount (h : StateInv s) (hp : s.status.ph = .active) (hrx : rxStep b s = .next t) :
    t.faultCount.toNat = t.faults.length ∧ (t.status.anyf = true ↔ t.faults ≠ []) := by
  rcases rxStep_faults_cases hrx with ⟨hf, hcount, hanyf⟩ | ⟨k, hr, hf, hcount, hanyf⟩
  · rw [hf, hcount, hanyf]
    exact h.faultCount
  · have hk := h.not_mem_faults hr
    have hlen : t.faults.length = s.faults.length + 1 := hf ▸ faultSet_length hk
    obtain ⟨hasc, hmem⟩ := h.rxStep_faults hrx
    have hbound := length_le_of_ascending hasc fun k hk => (hmem k hk).1
    obtain ⟨-, -, hfb, -⟩ := h.shape (ne_idle_of_active hp)
    have hbytes : s.byteCount.toNat < 2 ^ 32 := s.byteCount.isLt
    have hold := h.faultCount.1
    rw [if_neg (by simpa using hk)] at hcount
    rw [hcount, toNat_succ (by omega), hold, hlen]
    exact ⟨rfl, fun _ => List.ne_nil_of_length_pos (by omega), fun _ => hanyf⟩

/-- A byte keeps the invariants (R38). -/
theorem StateInv.of_rxStep (h : StateInv s) (hp : s.status.ph = .active) (hrx : rxStep b s = .next t) : StateInv t := by
  have hne := ne_idle_of_active hp
  obtain ⟨hpos, hle⟩ := h.pos_succ hp
  have hph := rxStep_ph hrx
  obtain ⟨hiok, hcw⟩ := rxStep_iok_cw hrx
  have hwp := h.rxStep_wp hp hrx
  obtain ⟨hwf, hinside, hwritten⟩ := h.rxStep_raw hp hrx
  have hfaults := h.rxStep_faults hrx
  have hcount := h.rxStep_faultCount hp hrx
  have hphase : t.status.ph ≠ .idle ∧ t.status.ph ≠ .ioerr := by rw [hph, hp]; split_ifs <;> simp
  have hnoerr : s.status.iok = .noError := by
    by_contra herr
    exact absurd (h.errorKind.mp herr) (by simp [hp])
  rw [← hpos] at hwp hfaults
  rw [rxStep_frame hrx]
  exact {
    params := h.params
    idleClear := fun hidle => absurd hidle hphase.1
    operands := fun _ => h.operands hne
    shape := fun _ => by simpa only [sampleWidth, hcw] using h.shape hne
    position := by
      change (t.status.ph = _ → (s.pos + 1).toNat = s.streamLen) ∧ (_ ∨ _ → (s.pos + 1).toNat < s.streamLen)
      rw [hph, hp, ← hpos]
      split_ifs with hlast
      · exact ⟨fun _ => hlast, by simp⟩
      · exact ⟨nofun, fun _ => by omega⟩
    payload := fun _ => hwp
    faultCount := hcount
    faults := hfaults
    errorKind := ⟨fun herr => absurd (hiok.trans hnoerr) herr, fun herr => absurd herr hphase.2⟩
    rawWf := hwf
    rawInside := hinside
    rawWritten := hwritten }

end

/-! ### The statements -/

/-- A step keeps the invariants, by its kind. -/
theorem StateInv.of_step {s t : State} (h : StateInv s) (hst : step s = .next t) : StateInv t := by
  obtain ⟨k, ws, bs, cs, -, hstep⟩ := step_eq_next hst
  have hports := h.withPorts ws bs cs
  cases k with
  | cmd w => exact hports.of_runCommand hstep
  | rx b => exact hports.of_rxStep hstep.1 hstep.2
  | rxFail k => exact (show t = _ from hstep) ▸ hports.of_rxFailStep k
  | reset => exact (show t = _ from hstep) ▸ hports.of_resetStep
  | idle => exact (show t = _ from hstep) ▸ hports.withRsp none

/-- Settles O45: `StateInv.of_step`. -/
theorem stepKeepsInv : Obligations.StepKeepsInv := by
  unfold Obligations.StepKeepsInv
  exact fun _ _ h hst => h.of_step hst

/-- Where the invariants hold, every host operation is answered (R17): the bytes and fault bits that RDSAMP, RDRAW and
RDFLT read exist. -/
theorem StateInv.exists_exec {s : State} (h : StateInv s) (i : Instr) : ∃ t, exec i s = .next t := by
  cases i with
  | enc wsel value => simp only [exec, execEnc]; split_ifs <;> exact ⟨_, rfl⟩
  | dec wsel field => simp only [exec, execDec]; split_ifs <;> exact ⟨_, rfl⟩
  | rdstart wsel c a b => simp only [exec, execRdstart]; split_ifs <;> exact ⟨_, rfl⟩
  | rdreg n => simp only [exec, execRdreg]; split <;> exact ⟨_, rfl⟩
  | rdsamp n =>
    have hrule := rdsampFollowsItsRule n s
    split_ifs at hrule
    · exact ⟨_, hrule⟩
    · exact ⟨_, hrule⟩
    · obtain ⟨_, -, -, -, _, -, hex⟩ := hrule h
      exact ⟨_, hex⟩
  | rdraw a =>
    have hrule := rdrawFollowsItsRule a s
    split_ifs at hrule
    · exact ⟨_, hrule⟩
    · exact ⟨_, hrule⟩
    · obtain ⟨_, -, hex⟩ := hrule h
      exact ⟨_, hex⟩
  | rdflt k =>
    have hrule := rdfltFollowsItsRule k s
    split at hrule
    · exact ⟨_, hrule⟩
    · split at hrule
      · exact ⟨_, hrule⟩
      · exact ⟨_, hrule h⟩
  | _ => exact ⟨_, rfl⟩

theorem StateInv.exists_runCommand {s : State} (h : StateInv s) (w : CmdWord) : ∃ t, runCommand w s = .next t := by
  cases hd : decode w with
  | ok i => rw [runCommand_of_ok hd]; exact h.exists_exec i
  | error e => exact ⟨_, runCommand_of_error hd s⟩

/-- Settles O46, by the kind of the step. -/
theorem stepNeverStopsUnderInv : Obligations.StepNeverStopsUnderInv := by
  unfold Obligations.StepNeverStopsUnderInv
  intro s h
  obtain ⟨k, ws, bs, cs, hk, hact⟩ := nextStep_cases s
  have hports := h.withPorts ws bs cs
  cases k with
  | cmd w => rw [step_of_cmd hk]; exact hports.exists_runCommand w
  | rx b => rw [step_of_rx hk]; exact hports.exists_rxStep (hact b rfl) b
  | rxFail k => exact ⟨_, step_of_rxFail hk⟩
  | reset => exact ⟨_, step_of_reset hk⟩
  | idle => exact ⟨_, step_of_idle hk⟩

/-- POS never passes the end of the stream, in any phase (R22). -/
theorem StateInv.pos_le {s : State} (h : StateInv s) : s.pos.toNat ≤ s.streamLen := by
  obtain ⟨hdone, hleft⟩ := h.position
  cases hp : s.status.ph with
  | idle =>
    obtain ⟨-, -, -, -, -, -, -, hpos, -⟩ := h.idleClear hp
    rw [hpos]
    exact Nat.zero_le _
  | active => exact (hleft (.inl hp)).le
  | done => exact (hdone hp).le
  | ioerr => exact (hleft (.inr hp)).le

/-- The partition of the byte count and its bound, in any phase (R27). -/
theorem StateInv.byteCount_bounds {s : State} (h : StateInv s) :
    s.byteCount.toNat = 64 * s.fullBlocks.toNat + s.remainder.toNat ∧ s.remainder.toNat < 64 ∧
      s.byteCount.toNat ≤ s.rawDepth.toNat := by
  by_cases hp : s.status.ph = .idle
  · obtain ⟨-, -, -, -, hbc, hfb, hrem, -⟩ := h.idleClear hp
    simp [hbc, hfb, hrem]
  · obtain ⟨heq, hlt⟩ := h.byteCount_eq hp
    obtain ⟨-, -, -, -, hdepth⟩ := h.shape hp
    exact ⟨heq, hlt, hdepth⟩

/-- Settles O50, from the parts of `StateInv`. -/
theorem readQuantitiesUnderInv : Obligations.ReadQuantitiesUnderInv := by
  unfold Obligations.ReadQuantitiesUnderInv
  intro s h
  obtain ⟨heq, hlt, hdepth⟩ := h.byteCount_bounds
  obtain ⟨hasc, hmem⟩ := h.faults
  have hfaults : s.faultCount.toNat ≤ s.fullBlocks.toNat + 1 :=
    h.faultCount.1 ▸ length_le_of_ascending hasc fun k hk => (hmem k hk).1
  refine ⟨heq, hlt, hdepth, hfaults, h.pos_le, fun hd => ⟨h.position.1 hd, h.wp_of_done hd, fun a ha => ?_⟩⟩
  exact h.rawWritten a (by rwa [h.wp_of_done hd])

end Sys2Proof.Machine

/-! SUPPORT. RD_ACC across one step (10_state.md R33, 43_block_reader.md R99 a): runs of RAW that grow by one byte, and the
statements of the family 'other' about `AccInv`. -/

namespace Sys2Proof.Machine

/-! ### Runs of RAW -/

/-- `rawBytes_eq_some` with its converse: a run of RAW is the bytes of its addresses. -/
theorem rawBytes_eq_some_iff {m : List Host.Cell} {addr n : Nat} {bs : List Byte} :
    rawBytes m addr n = some bs ↔ bs.length = n ∧ ∀ j < n, rawGet m (addr + j) = bs[j]? := by
  refine ⟨rawBytes_eq_some, fun ⟨hlen, hget⟩ => ?_⟩
  have hsome : (rawBytes m addr n).isSome = true := rawBytes_isSome.mpr fun j hj => by
    rw [hget j hj, List.getElem?_eq_getElem (hlen ▸ hj), Option.isSome_some]
  obtain ⟨cs, hcs⟩ := Option.isSome_iff_exists.mp hsome
  obtain ⟨hlen', hget'⟩ := rawBytes_eq_some hcs
  rw [hcs, List.ext_getElem? (l₁ := cs) (l₂ := bs) fun j => ?_]
  by_cases hj : j < n
  · rw [← hget j hj, hget' j hj]
  · rw [List.getElem?_eq_none (by omega), List.getElem?_eq_none (by omega)]

/-- A store just past a run makes it one byte longer (R99). -/
theorem rawBytes_rawSet_end {m : List Host.Cell} {addr n : Nat} {bs : List Byte} (h : rawBytes m addr n = some bs)
    (b : Byte) : rawBytes (rawSet m (addr + n) b) addr (n + 1) = some (bs ++ [b]) := by
  obtain ⟨hlen, hget⟩ := rawBytes_eq_some h
  refine rawBytes_eq_some_iff.mpr ⟨by simp [hlen], fun j hj => ?_⟩
  rw [rawGet_rawSet]
  rcases Nat.lt_succ_iff_lt_or_eq.mp hj with hlt | rfl
  · rw [if_neg (by omega), hget j hlt, List.getElem?_append_left (by omega)]
  · rw [if_pos rfl, ← hlen, List.getElem?_concat_length]

/-! ### RD_ACC by the role of the next byte -/

/-- RD_ACC is the residue of the payload of block `k` stored so far (R33). -/
def AccumulatesBlock (s : State) (k : Nat) : Prop :=
  ∃ bs, rawBytes s.raw (64 * k) (s.wp.toNat - 64 * k) = some bs ∧ s.rdAcc.toNat = byteSum bs % 64

/-- What RD_ACC holds where the next byte has role `r` (R33, R99 a). -/
def AccHolds (s : State) : Role → Prop
  | .pay k _ => AccumulatesBlock s k
  | .sum k => AccumulatesBlock s k
  | .hdr => s.rdAcc = 0
  | .term => s.rdAcc = 0

theorem accInv_iff {s : State} : AccInv s ↔ (s.status.ph = .active → AccHolds s (s.roleAt s.pos.toNat)) := by
  unfold AccInv AccHolds
  cases s.roleAt s.pos.toNat <;> rfl

/-- `AccInv` speaks of the current read only. -/
theorem accInv_of_not_active {s : State} (h : s.status.ph ≠ .active) : AccInv s := fun hp => absurd hp h

/-- A cleared accumulator is the residue of a block of which nothing has been stored. -/
theorem accumulatesBlock_of_cleared {s : State} {k : Nat} (h0 : s.rdAcc = 0) (hwp : s.wp.toNat ≤ 64 * k) :
    AccumulatesBlock s k :=
  ⟨[], by rw [Nat.sub_eq_zero_of_le hwp]; rfl, by rw [h0]; rfl⟩

/-- A cleared accumulator holds at the start of a block. -/
theorem accHolds_of_blockStart {s : State} {h fb rem i : Nat} (hs : BlockStart h fb rem i) (h0 : s.rdAcc = 0)
    (hwp : s.wp.toNat = payBelow h fb rem i) : AccHolds s (role h fb rem i) := by
  obtain ⟨k, hk, hr | hr⟩ := hs <;> rw [hr] <;> exact accumulatesBlock_of_cleared h0 (by rw [hwp, hk])

/-- A payload byte stored at WP and added to RD_ACC keeps RD_ACC the residue of its block (R99 a). -/
theorem AccumulatesBlock.store {s t : State} {k : Nat} {b : Byte} (h : AccumulatesBlock s k)
    (hk : 64 * k ≤ s.wp.toNat) (hraw : t.raw = rawSet s.raw s.wp.toNat b) (hwp : t.wp.toNat = s.wp.toNat + 1)
    (hacc : t.rdAcc = addResidue s.rdAcc b) : AccumulatesBlock t k := by
  obtain ⟨bs, hbs, hsum⟩ := h
  have hend : 64 * k + (s.wp.toNat - 64 * k) = s.wp.toNat := by omega
  have hrun := rawBytes_rawSet_end hbs b
  rw [hend] at hrun
  refine ⟨bs ++ [b], ?_, ?_⟩
  · rw [hraw, hwp, Nat.succ_sub hk, hrun]
  · rw [hacc, toNat_addResidue, hsum, byteSum_append, byteSum_cons, byteSum_nil]
    omega

/-! ### One step -/

/-- An `rx` step keeps the layout of the read. -/
theorem rxStep_layout {b : Byte} {s t : State} (h : rxStep b s = .next t) :
    t.roleAt = s.roleAt ∧ t.streamLen = s.streamLen := by
  rw [rxStep_frame h]
  exact ⟨rfl, rfl⟩

/-- Where the next position is of the same kind or starts a block, a cleared accumulator holds (R99 a, d). -/
theorem accHolds_of_cleared {s : State} {h fb rem i : Nat} (h0 : s.rdAcc = 0)
    (hr : role h fb rem i = .hdr ∨ role h fb rem i = .term ∨ BlockStart h fb rem i)
    (hwp : s.wp.toNat = payBelow h fb rem i) : AccHolds s (role h fb rem i) := by
  rcases hr with hr | hr | hr
  · rwa [hr]
  · rwa [hr]
  · exact accHolds_of_blockStart hr h0 hwp

/-- A byte keeps RD_ACC what R33 says, by the role of the byte and of the one after it. -/
theorem AccInv.of_rxStep {b : Byte} {s t : State} (ha : AccInv s) (h : StateInv s) (hp : s.status.ph = .active)
    (hrx : rxStep b s = .next t) : AccInv t := by
  have hacc := accInv_iff.mp ha hp
  have hwp := (h.rxStep_wp hp hrx).1
  have hnext := role_succ s.hdrLen.toNat s.fullBlocks.toNat s.remainder.toNat s.pos.toNat
  change match s.roleAt s.pos.toNat with | .hdr => _ | .term => _ | .pay k o => _ | .sum _ => _ at hnext
  have hcleared (h0 : t.rdAcc = 0) (hr : s.roleAt (s.pos.toNat + 1) = .hdr ∨ s.roleAt (s.pos.toNat + 1) = .term ∨
      BlockStart s.hdrLen.toNat s.fullBlocks.toNat s.remainder.toNat (s.pos.toNat + 1)) :
      AccHolds t (s.roleAt (s.pos.toNat + 1)) := accHolds_of_cleared h0 hr (payCount_eq s _ ▸ hwp)
  refine accInv_iff.mpr fun _ => ?_
  rw [(rxStep_layout hrx).1, rxStep_pos hrx, (h.pos_succ hp).1]
  rcases rxStep_writes hrx with ⟨hr, -, -, h0⟩ | ⟨k, o, hr, -, -, hraw, -, hadd⟩ | ⟨k, hr, -, h0, -⟩ | ⟨k, hr, -, h0, -⟩
  · rcases hr with hr | hr <;> rw [hr] at hnext hacc
    · exact hcleared (h0.trans hacc) (hnext.imp_right .inr)
    · exact hcleared (h0.trans hacc) (.inr hnext)
  · obtain ⟨hwpk, -⟩ := h.wp_of_pay (ne_idle_of_active hp) hr
    rw [hr] at hnext hacc
    have hstore : AccumulatesBlock t k :=
      AccumulatesBlock.store hacc (by omega) hraw (h.rxStep_wp_of_pay hp hrx hr) hadd
    change s.roleAt (s.pos.toNat + 1) = _ ∨ s.roleAt (s.pos.toNat + 1) = _ at hnext
    rcases hnext with hnext | hnext <;> rw [hnext] <;> exact hstore
  · rw [hr] at hnext
    exact hcleared h0 (.inr (.inl hnext))
  · rw [hr] at hnext
    exact hcleared h0 (.inr (.inl hnext))

/-- An accepted RDSTART begins with a cleared accumulator and nothing stored (R95). -/
theorem AccInv.of_rdstart {wsel : BitVec 2} {c : BitVec 12} {a b : Word} {s t : State}
    (hacc : RdstartAccepted wsel c a b s t) : AccInv t := by
  have h0 : t.rdAcc = 0 := by rw [hacc.arms]; rfl
  have hwp : t.wp.toNat = 0 := by rw [hacc.arms]; rfl
  refine accInv_iff.mpr fun _ => ?_
  cases t.roleAt t.pos.toNat with
  | hdr => exact h0
  | term => exact h0
  | pay k o => exact accumulatesBlock_of_cleared h0 (by omega)
  | sum k => exact accumulatesBlock_of_cleared h0 (by omega)

theorem AccInv.of_runCommand {w : CmdWord} {s t : State} (ha : AccInv s) (h : runCommand w s = .next t) :
    AccInv t := by
  rcases runCommand_eq_next h with ⟨r, -, -, rfl⟩ | ⟨-, v, rfl⟩ | ⟨-, wsel, c, a, b, -, hacc⟩
  · exact ha
  · exact ha
  · exact .of_rdstart hacc

/-- Settles O47, by the kind of the step. -/
theorem stepKeepsAccInv : Obligations.StepKeepsAccInv := by
  unfold Obligations.StepKeepsAccInv
  intro s t h ha hst
  obtain ⟨k, ws, bs, cs, -, hstep⟩ := step_eq_next hst
  have hports : AccInv (s.withPorts ws bs cs) := ha
  cases k with
  | cmd w => exact hports.of_runCommand hstep
  | rx b => exact hports.of_rxStep (h.withPorts ws bs cs) hstep.1 hstep.2
  | rxFail k =>
    refine accInv_of_not_active ?_
    rw [show t = _ from hstep, rxFailStep_ph]
    split_ifs with hp
    · decide
    · exact hp
  | reset => exact accInv_of_not_active (by simp [show t = _ from hstep])
  | idle => exact (show t = _ from hstep) ▸ hports

/-- A checksum byte sets its block's fault bit exactly where it is not the checksum byte of RD_ACC (R99 b, c, e). -/
theorem StateInv.mem_faults_of_sum {b : Byte} {s t : State} {k : Nat} (h : StateInv s)
    (hr : s.roleAt s.pos.toNat = .sum k) (hrx : rxStep b s = .next t) : k ∈ t.faults ↔ b ≠ sumByte s.rdAcc := by
  rcases rxStep_writes hrx with ⟨hr', -⟩ | ⟨j, o, hr', -⟩ | ⟨j, -, -, -, hb, hf⟩ | ⟨j, hr', -, -, hb, hf, -⟩
  · rw [hr] at hr'; simp at hr'
  · rw [hr] at hr'; cases hr'
  · rw [hf.1]
    exact iff_of_false (h.not_mem_faults hr) (not_not.mpr hb)
  · obtain rfl := Role.sum.inj (hr.symm.trans hr')
    rw [hf]
    exact iff_of_true ((mem_faultSet s.faults k k).mpr (.inl rfl)) hb

/-- Settles O48: RD_ACC's checksum byte is `checksum` of the stored payload. -/
theorem sumByteIsComparedWithTheBlockChecksum : Obligations.SumByteIsComparedWithTheBlockChecksum := by
  unfold Obligations.SumByteIsComparedWithTheBlockChecksum
  intro b s k h ha hp hr
  have hacc := accInv_iff.mp ha hp
  rw [hr] at hacc
  obtain ⟨bs, hbs, hsum⟩ := hacc
  obtain ⟨t, hrx⟩ := h.exists_rxStep hp b
  exact ⟨bs, t, hbs, hrx, sumByte_eq_checksum hsum ▸ h.mem_faults_of_sum hr hrx⟩

end Sys2Proof.Machine

/-! SUPPORT. The operations that are not the reader's, as functions of CSACC (20_memory.md R47), and what the host does
while the reader is ACTIVE (70_reset_and_hazards.md R149). -/

namespace Sys2Proof.Machine

/-! ### The operations that are not the reader's -/

/-- They read CSACC and write CSACC and the response output, in every state (R20, R47). -/
theorem exec_of_not_reader {i : Instr} (h : readerOperation i = false) :
    ∃ (v : Residue → Residue) (r : Residue → Response), ∀ s,
      exec i s = .next ((s.withCsacc (v s.csacc)).withRsp (some (r s.csacc))) := by
  cases i with
  | enc wsel value =>
    by_cases hw : wsel = 3
    · exact ⟨id, fun _ => ⟨.errIllop, 0⟩, hw ▸ exec_enc_illop value⟩
    · by_cases hv : 64 ^ fieldWidth wsel ≤ value.toNat
      · exact ⟨id, fun _ => ⟨.errRange, 0⟩, exec_enc_range hw hv⟩
      · exact ⟨id, fun _ => ⟨.ok, _⟩, exec_enc_ok hw hv⟩
  | dec wsel field =>
    by_cases hw : wsel = 3
    · exact ⟨id, fun _ => ⟨.errIllop, 0⟩, hw ▸ exec_dec_illop field⟩
    · exact ⟨id, fun _ => ⟨.ok, _⟩, exec_dec_ok hw field⟩
  | csclr => exact ⟨fun _ => 0, fun _ => ⟨.ok, 0⟩, exec_csclr⟩
  | csadd b => exact ⟨fun acc => addResidue acc b, fun _ => ⟨.ok, 0⟩, exec_csadd b⟩
  | csget => exact ⟨id, fun acc => ⟨.ok, (sumByte acc).setWidth 32⟩, exec_csget⟩
  | csvfy x => exact ⟨id, fun acc => ⟨.ok, if sumByte acc = x then 1 else 0⟩, exec_csvfy x⟩
  | classify s0 s1 => exact ⟨id, fun _ => ⟨.ok, _⟩, exec_classify s0 s1⟩
  | rdstart wsel c a b => cases h
  | rdreg n => cases h
  | rdsamp n => cases h
  | rdraw a => cases h
  | rdflt k => cases h

/-- Consuming a byte does not look at CSACC or the response output, and keeps them (R47, R99). -/
theorem consumeByte_withCsacc_withRsp (s : State) (v : Residue) (q : Option Response) (r : Role) (b : Byte) :
    consumeByte ((s.withCsacc v).withRsp q) r b =
      (consumeByte s r b).map fun u => (u.withCsacc v).withRsp q := by
  cases r with
  | hdr => rfl
  | term => rfl
  | pay k o =>
    by_cases hlt : s.wp.toNat < s.rawDepth.toNat
    · rw [consumeByte_pay hlt, consumeByte_pay (by exact hlt)]
      rfl
    · simp [consumeByte, rawStore, hlt, Except.map]
  | sum k =>
    by_cases hb : b = sumByte s.rdAcc
    · rw [consumeByte_sum_match hb, consumeByte_sum_match (by exact hb)]
      rfl
    · by_cases hk : k < maxBlocks s
      · rw [consumeByte_sum_mismatch hb hk, consumeByte_sum_mismatch (by exact hb) (by exact hk)]
        rfl
      · have hk' : ¬k < maxBlocks ((s.withCsacc v).withRsp q) := hk
        simp [consumeByte, recordFault, hb, hk, hk', Except.map]

/-- An `rx` step does the same after CSACC and the response output have been written (R47). -/
theorem rxStep_withCsacc_withRsp {b : Byte} {s u : State} (h : rxStep b s = .next u) (v : Residue)
    (q : Option Response) : rxStep b ((s.withCsacc v).withRsp q) = .next (u.withCsacc v) := by
  obtain ⟨hlt, w, hw, rfl⟩ := rxStep_eq_next h
  have hw' := consumeByte_withCsacc_withRsp s v q (s.roleAt s.pos.toNat) b
  rw [hw] at hw'
  rw [rxStep_of_consumeByte (s := (s.withCsacc v).withRsp q) hlt hw', advance_eq, advance_eq]
  rfl

/-- A failure does the same after CSACC and the response output have been written (R47). -/
theorem rxFailStep_withCsacc_withRsp (k : BitVec 2) (s : State) (v : Residue) (q : Option Response) :
    rxFailStep k ((s.withCsacc v).withRsp q) = (rxFailStep k s).withCsacc v := by
  rw [rxFailStep_eq, rxFailStep_eq]
  rfl

/-- Settles O43: the operation writes CSACC and the response output from CSACC alone, which the transport's steps neither
read nor write. -/
theorem pureOperationsCommuteWithTheStream : Obligations.PureOperationsCommuteWithTheStream := by
  unfold Obligations.PureOperationsCommuteWithTheStream
  intro i s t hi ht
  obtain ⟨v, r, hexec⟩ := exec_of_not_reader hi
  obtain rfl := Host.Outcome.next.inj ((hexec s).symm.trans ht)
  refine ⟨fun b u hu => ?_, fun k => ?_⟩
  · have hcs : u.csacc = s.csacc := by rw [rxStep_frame hu]
    refine ⟨_, _, rxStep_withCsacc_withRsp hu _ _, hexec u, ?_, ?_⟩ <;> rw [hcs] <;> rfl
  · have hcs : (rxFailStep k s).csacc = s.csacc := by rw [rxFailStep_eq]; rfl
    refine ⟨_, hexec _, ?_, ?_⟩
    · rw [hcs]; rfl
    · rw [hcs, rxFailStep_withCsacc_withRsp]; rfl

/-! ### The host while the reader is ACTIVE -/

/-- While the reader is ACTIVE, a host operation changes CSACC and the response output at most: RDSTART is refused, and so
are the three that read a finished read (R95, R103 to R105). -/
theorem exec_of_active {s : State} (hp : s.status.ph = .active) (i : Instr) :
    ∃ v r, exec i s = .next ((s.withCsacc v).withRsp r) := by
  have hrefused : s.status.ph ≠ .done := by simp [hp]
  by_cases hi : readerOperation i = false
  · obtain ⟨v, r, hexec⟩ := exec_of_not_reader hi
    exact ⟨_, _, hexec s⟩
  cases i with
  | rdstart wsel c a b =>
    by_cases hw : 2 ≤ wsel.toNat
    · exact ⟨s.csacc, _, if_pos hw⟩
    · exact ⟨s.csacc, _, (if_neg hw).trans (if_pos hp)⟩
  | rdreg n => simp only [exec, execRdreg]; split <;> exact ⟨s.csacc, _, rfl⟩
  | rdsamp n => exact ⟨s.csacc, _, if_pos hrefused⟩
  | rdraw a => exact ⟨s.csacc, _, if_pos hrefused⟩
  | rdflt k => exact ⟨s.csacc, _, if_pos hrefused⟩
  | _ => exact absurd rfl hi

theorem runCommand_of_active {s : State} (hp : s.status.ph = .active) (w : CmdWord) :
    ∃ v r, runCommand w s = .next ((s.withCsacc v).withRsp r) := by
  cases hd : decode w with
  | ok i => rw [runCommand_of_ok hd]; exact exec_of_active hp i
  | error e => exact ⟨s.csacc, _, runCommand_of_error hd s⟩

/-- The state that differs from `s` in CSACC, the response output and the host's side of the ports. -/
def State.withHostSide (s : State) (v : Residue) (r : Option Response) (ws : List CmdWord) (cs : List Cycle) : State :=
  ((s.withPorts ws s.stream cs).withCsacc v).withRsp r

theorem WaitsForTransport.withHostSide {s : State} (h : WaitsForTransport s) (v : Residue) (r : Option Response)
    (ws : List CmdWord) {cs : List Cycle} (hcs : ∀ c ∈ cs, c ∈ s.cycles) :
    WaitsForTransport (s.withHostSide v r ws cs) :=
  ⟨h.1, fun c hc => h.2 c (hcs c hc)⟩

/-- One step of the wait: the next step is the host's or none (R98, R149). -/
theorem WaitsForTransport.step {s : State} (h : WaitsForTransport s) :
    ∃ v r ws cs, Machine.step s = .next (s.withHostSide v r ws cs) ∧ ∀ c ∈ cs, c ∈ s.cycles := by
  obtain ⟨hp, hsilent⟩ := h
  match hc : s.cycles with
  | [] => exact ⟨s.csacc, none, s.cmds, s.cycles, step_of_idle (nextStep_of_no_cycle hc), by simp [hc]⟩
  | c :: cs =>
    obtain ⟨hrst, hfail, hbyte⟩ := hsilent c (by simp [hc])
    have ht : transportEvent c s = none := transportEvent_eq_none hfail (hbyte.imp_right .inl)
    have hsub : ∀ d ∈ cs, d ∈ c :: cs := fun _ => List.mem_cons_of_mem c
    match hh : hostEvent c s with
    | none =>
      exact ⟨s.csacc, none, s.cmds, cs, step_of_idle (nextStep_of_neither hc hrst hh ht), hsub⟩
    | some p =>
      obtain ⟨w, ws, -, -, rfl⟩ := hostEvent_eq_some hh
      obtain ⟨v, r, hrun⟩ := runCommand_of_active (s := s.withPorts ws s.stream cs) hp w
      exact ⟨v, r, ws, cs, (step_of_cmd (nextStep_of_host hc hrst hh ht)).trans hrun, hsub⟩

/-- Any number of steps of the wait. -/
theorem WaitsForTransport.runSteps (n : Nat) {s : State} (h : WaitsForTransport s) :
    ∃ v r ws cs, Machine.runSteps n s = .next (s.withHostSide v r ws cs) ∧
      WaitsForTransport (s.withHostSide v r ws cs) := by
  induction n generalizing s with
  | zero => exact ⟨s.csacc, s.rsp, s.cmds, s.cycles, rfl, h⟩
  | succ n ih =>
    obtain ⟨v, r, ws, cs, hstep, hcs⟩ := h.step
    obtain ⟨v', r', ws', cs', hrun, hwait⟩ := ih (h.withHostSide v r ws hcs)
    exact ⟨v', r', ws', cs', by simp only [Machine.runSteps, hstep, hrun]; rfl, hwait⟩

/-- Settles O52: `WaitsForTransport.runSteps`. -/
theorem readerWaitsWithoutEnd : Obligations.ReaderWaitsWithoutEnd := by
  unfold Obligations.ReaderWaitsWithoutEnd
  intro n s h
  obtain ⟨v, r, ws, cs, hrun, hwait⟩ := h.runSteps n
  exact ⟨_, hrun, hwait, rfl⟩

end Sys2Proof.Machine

/-! SUPPORT. Runs of stream bytes (43_block_reader.md R106, 70_reset_and_hazards.md R149), and the statements of the family
'other' about whole reads. -/

namespace Sys2Proof.Machine

/-! ### Runs -/

theorem runBytes_cons_of_next {b : Byte} {bs : List Byte} {s t : State} (h : rxStep b s = .next t) :
    runBytes (b :: bs) s = runBytes bs t := by
  simp only [runBytes, h]

/-- What holds before a run, and is taken from each count of bytes to the next by a step that completes, holds after the
run, which completes. -/
theorem runBytes_induction {P : Nat → State → Prop} {bs : List Byte} {s : State} (h0 : P 0 s)
    (hstep : ∀ (n : Nat) (hn : n < bs.length) (t : State), P n t → ∃ u, rxStep bs[n] t = .next u ∧ P (n + 1) u) :
    ∃ t, runBytes bs s = .next t ∧ P bs.length t := by
  induction bs generalizing P s with
  | nil => exact ⟨s, rfl, h0⟩
  | cons b bs ih =>
    obtain ⟨u, hu, h1⟩ := hstep 0 (by simp) s h0
    obtain ⟨t, ht, hP⟩ := ih (P := fun n => P (n + 1)) h1 fun n hn => hstep (n + 1) (by simpa using hn)
    exact ⟨t, (runBytes_cons_of_next hu).trans ht, hP⟩

/-! ### The end of a read -/

/-- `n` bytes after `s`, an ACTIVE read has moved by `n` and is DONE exactly at its end. -/
structure ReadAdvanced (s : State) (n : Nat) (t : State) : Prop where
  inv : StateInv t
  layout : t.roleAt = s.roleAt ∧ t.streamLen = s.streamLen
  pos : t.pos.toNat = s.pos.toNat + n
  phase : t.status.ph = if s.pos.toNat + n = s.streamLen then .done else .active

theorem ReadAdvanced.start {s : State} (h : StateInv s) (hp : s.status.ph = .active) : ReadAdvanced s 0 s := by
  have hlt := h.position.2 (.inl hp)
  exact ⟨h, ⟨rfl, rfl⟩, rfl, by rw [if_neg (by omega), hp]⟩

/-- One more byte while there is one left. -/
theorem ReadAdvanced.of_rxStep {s t u : State} {n : Nat} {b : Byte} (h : ReadAdvanced s n t)
    (hn : s.pos.toNat + n < s.streamLen) (hu : rxStep b t = .next u) : ReadAdvanced s (n + 1) u := by
  have hp : t.status.ph = .active := by rw [h.phase, if_neg hn.ne]
  obtain ⟨hrole, hlen⟩ := h.layout
  obtain ⟨hrole', hlen'⟩ := rxStep_layout hu
  refine ⟨h.inv.of_rxStep hp hu, ⟨hrole'.trans hrole, hlen'.trans hlen⟩, ?_, ?_⟩
  · rw [rxStep_pos hu, (h.inv.pos_succ hp).1, h.pos, Nat.add_assoc]
  · rw [rxStep_ph hu, hp, hlen, h.pos, Nat.add_assoc]

/-- Settles O53: each byte moves the read on, and the phase is read off the count. -/
theorem readEndsWhereTheTransportDelivers : Obligations.ReadEndsWhereTheTransportDelivers := by
  unfold Obligations.ReadEndsWhereTheTransportDelivers
  intro s bs h hp hle
  have hlt := h.position.2 (.inl hp)
  obtain ⟨t, hrun, hadv⟩ := runBytes_induction (bs := bs) (ReadAdvanced.start h hp) fun n hn t ht => by
    have hleft : s.pos.toNat + n < s.streamLen := by omega
    obtain ⟨u, hu⟩ := ht.inv.exists_rxStep (by rw [ht.phase, if_neg hleft.ne]) bs[n]
    exact ⟨u, hu, ht.of_rxStep hleft hu⟩
  refine ⟨t, hrun, ?_, fun k hk => by rw [rxFailStep_ph, if_pos hk]⟩
  have hend : s.pos.toNat + bs.length = s.streamLen ↔ bs.length = s.streamLen - s.pos.toNat := by omega
  rw [hadv.phase]
  simp only [hend]

/-! ### Bytes without influence -/

/-- A header byte or a terminator is consumed whatever it is (R99 d). -/
theorem rxStep_congr {x y : Byte} {s : State}
    (h : s.roleAt s.pos.toNat ≠ .hdr → s.roleAt s.pos.toNat ≠ .term → x = y) : rxStep x s = rxStep y s := by
  have hcons : consumeByte s (s.roleAt s.pos.toNat) x = consumeByte s (s.roleAt s.pos.toNat) y := by
    cases hr : s.roleAt s.pos.toNat with
    | hdr => rfl
    | term => rfl
    | pay k o => rw [h (by simp [hr]) (by simp [hr])]
    | sum k => rw [h (by simp [hr]) (by simp [hr])]
  simp only [rxStep, hcons]

/-- Two runs of the bytes left of a read have the same outcome where their bytes agree at every payload and checksum
position. -/
theorem runBytes_congr {xs ys : List Byte} {s : State} (hL : s.streamLen < 2 ^ 32)
    (hxs : s.pos.toNat + xs.length ≤ s.streamLen) (hlen : xs.length = ys.length)
    (h : ∀ j < xs.length, s.roleAt (s.pos.toNat + j) ≠ .hdr → s.roleAt (s.pos.toNat + j) ≠ .term →
      xs[j]? = ys[j]?) : runBytes xs s = runBytes ys s := by
  induction xs generalizing ys s with
  | nil => rw [List.length_eq_zero_iff.mp hlen.symm]
  | cons x xs ih =>
    match ys, hlen with
    | y :: ys, hlen =>
      have hfirst : rxStep x s = rxStep y s :=
        rxStep_congr fun h1 h2 => by simpa using h 0 (by simp) h1 h2
      rw [List.length_cons] at hxs h
      simp only [runBytes, hfirst]
      match hy : rxStep y s with
      | .next t =>
        obtain ⟨hrole, hlayout⟩ := rxStep_layout hy
        have hpos : t.pos.toNat = s.pos.toNat + 1 := by rw [rxStep_pos hy, toNat_succ (by omega)]
        refine ih (by rwa [hlayout]) (by omega) (Nat.succ.inj hlen) fun j hj h1 h2 => ?_
        rw [hrole, hpos, Nat.add_assoc, Nat.add_comm 1 j] at h1 h2
        simpa using h (j + 1) (by omega) h1 h2
      | .fault f => rfl
      | .refused r => rfl

/-- Settles O54: `runBytes_congr` from position 0. -/
theorem discardedBytesHaveNoInfluence : Obligations.DiscardedBytesHaveNoInfluence := by
  unfold Obligations.DiscardedBytesHaveNoInfluence
  intro s xs ys h hp h0 hxs hys hagree
  have hpos : s.pos.toNat = 0 := by rw [h0]; rfl
  refine runBytes_congr (h.streamLen_lt (ne_idle_of_active hp)) (by omega) (by omega) fun j hj h1 h2 => ?_
  rw [hpos, Nat.zero_add] at h1 h2
  exact hagree j (by omega) h1 h2

end Sys2Proof.Machine


/-! SUPPORT. A completed read against its stream (43_block_reader.md R106): where each payload byte stands in the stream,
and what RAW and FAULT hold after each count of bytes. -/

namespace Sys2Proof.Machine

/-! ### The payload in the stream -/

/-- The stream position of payload byte `j` (R97). -/
def payPosition (s : State) (j : Nat) : Nat := s.hdrLen.toNat + 66 * (j / 64) + j % 64

/-- Payload bytes of block `k` (R96). -/
def blockSize (s : State) (k : Nat) : Nat := if k < s.fullBlocks.toNat then 64 else s.remainder.toNat

section
variable {s : State}

/-- The payload byte a payload role stands for is at the role's position (R97). -/
theorem payPosition_of_role {i k o : Nat} (hrem : s.remainder.toNat < 64) (hr : s.roleAt i = .pay k o) :
    payPosition s (64 * k + o) = i := by
  have h := role_cases s.hdrLen.toNat s.fullBlocks.toNat s.remainder.toNat i
  change role s.hdrLen.toNat s.fullBlocks.toNat s.remainder.toNat i = _ at hr
  simp only [hr, Role.pay.injEq, reduceCtorEq, and_false, exists_false, or_false, false_or] at h
  unfold payPosition
  rcases h with ⟨k', o', hk, ho, hi, rfl, rfl⟩ | ⟨o', ho, hi, rfl, rfl⟩ <;> omega

/-- The checksum byte stands after its block's payload (R97). -/
theorem sumPosition_eq {k : Nat} (hk : k ≤ s.fullBlocks.toNat) :
    sumPosition s k = s.hdrLen.toNat + 66 * k + blockSize s k := by
  unfold sumPosition blockSize
  split_ifs with hlt
  · rfl
  · obtain rfl : k = s.fullBlocks.toNat := by omega
    rfl

theorem blockPayload_eq {k : Nat} (hk : k ≤ s.fullBlocks.toNat) (bs : List Byte) :
    blockPayload s bs k = (bs.drop (s.hdrLen.toNat + 66 * k)).take (blockSize s k) := by
  unfold blockPayload blockSize
  split_ifs with hlt
  · rfl
  · obtain rfl : k = s.fullBlocks.toNat := by omega
    rfl

/-- Every block has a checksum byte, at its position (R97). -/
theorem roleAt_sumPosition {k : Nat} (hk : k ≤ s.fullBlocks.toNat) : s.roleAt (sumPosition s k) = .sum k := by
  unfold sumPosition State.roleAt
  split_ifs with hlt
  · simpa using role_fullBlock s.hdrLen.toNat s.remainder.toNat (j := 64) hlt (by decide)
  · obtain rfl : k = s.fullBlocks.toNat := by omega
    simpa using role_finalBlock s.hdrLen.toNat s.fullBlocks.toNat s.remainder.toNat s.remainder.toNat

/-- At a checksum byte all payload of its block and the blocks before lies below (R38 e). -/
theorem payCount_sumPosition {k : Nat} (hk : k ≤ s.fullBlocks.toNat) (hrem : s.remainder.toNat < 64) :
    payCount s (sumPosition s k) = 64 * k + blockSize s k := by
  rw [payCount_eq, sumPosition_eq hk]
  unfold payBelow blockSize
  split_ifs <;> omega

theorem blockSize_le (hrem : s.remainder.toNat < 64) (k : Nat) : blockSize s k ≤ 64 := by
  unfold blockSize
  split_ifs <;> omega

/-- Payload byte `j` of block `k` is payload byte `64k + j` of the read (R97). -/
theorem payPosition_block {k j : Nat} (hj : j < 64) :
    payPosition s (64 * k + j) = s.hdrLen.toNat + 66 * k + j := by
  unfold payPosition
  omega

theorem getElem?_blockPayload {k j : Nat} (hrem : s.remainder.toNat < 64) (hk : k ≤ s.fullBlocks.toNat)
    (bs : List Byte) (hj : j < blockSize s k) : (blockPayload s bs k)[j]? = bs[payPosition s (64 * k + j)]? := by
  rw [blockPayload_eq hk, List.getElem?_take_of_lt hj, List.getElem?_drop,
    payPosition_block (hj.trans_le (blockSize_le hrem k))]

/-- A whole stream holds the whole payload of each block (R96). -/
theorem length_blockPayload {k : Nat} {bs : List Byte} (hk : k ≤ s.fullBlocks.toNat)
    (hlen : bs.length = s.streamLen) : (blockPayload s bs k).length = blockSize s k := by
  have hfits : s.hdrLen.toNat + 66 * k + blockSize s k ≤ bs.length := by
    rw [hlen, State.streamLen, streamLength, blockSpan, blockLen]
    unfold blockSize
    split_ifs <;> omega
  rw [blockPayload_eq hk, List.length_take, List.length_drop]
  omega

/-- A list that is the first `n` payload bytes of the stream. -/
def CarriesPayload (s : State) (bs ps : List Byte) (n : Nat) : Prop :=
  ps.length = n ∧ ∀ j < n, ps[j]? = bs[payPosition s j]?

/-- One more block. -/
theorem CarriesPayload.append_block {bs ps : List Byte} {k : Nat} (h : CarriesPayload s bs ps (64 * k))
    (hrem : s.remainder.toNat < 64) (hk : k ≤ s.fullBlocks.toNat) (hlen : bs.length = s.streamLen) :
    CarriesPayload s bs (ps ++ blockPayload s bs k) (64 * k + blockSize s k) := by
  obtain ⟨hps, hget⟩ := h
  refine ⟨by rw [List.length_append, hps, length_blockPayload hk hlen], fun j hj => ?_⟩
  rcases Nat.lt_or_ge j (64 * k) with hlt | hge
  · rw [List.getElem?_append_left (by omega), hget j hlt]
  · rw [List.getElem?_append_right (by omega), hps, getElem?_blockPayload hrem hk bs (by omega), Nat.add_sub_cancel' hge]

/-- The payload of the full blocks. -/
theorem carriesPayload_fullBlocks {bs : List Byte} (hrem : s.remainder.toNat < 64)
    (hlen : bs.length = s.streamLen) {m : Nat} (hm : m ≤ s.fullBlocks.toNat) :
    CarriesPayload s bs ((List.range m).flatMap (blockPayload s bs)) (64 * m) := by
  induction m with
  | zero => exact ⟨rfl, nofun⟩
  | succ m ih =>
    have hblock := (ih (by omega)).append_block hrem (by omega) hlen
    rw [blockSize, if_pos (Nat.lt_of_succ_le hm)] at hblock
    simpa [List.range_succ, Nat.mul_succ] using hblock

/-- The payload of all blocks (R106). -/
theorem carriesPayload_streamPayload {bs : List Byte} (h : StateInv s) (hlen : bs.length = s.streamLen) :
    CarriesPayload s bs (streamPayload s bs) s.byteCount.toNat := by
  obtain ⟨heq, hrem, -⟩ := h.byteCount_bounds
  have hall := (carriesPayload_fullBlocks hrem hlen le_rfl).append_block hrem le_rfl hlen
  rw [blockSize, if_neg (lt_irrefl _), ← heq] at hall
  simpa [streamPayload, List.range_succ] using hall

end

/-! ### RAW and FAULT after each count of bytes -/

/-- What the first `n` bytes of the stream `bs` have made of the armed state `s` (R106). -/
structure ReadSoFar (s : State) (bs : List Byte) (n : Nat) (t : State) : Prop where
  advanced : ReadAdvanced s n t
  acc : AccInv t
  shape : t.byteCount = s.byteCount ∧ t.sampleCount = s.sampleCount ∧ t.status.cw = s.status.cw
  raw : ∀ j < t.wp.toNat, rawGet t.raw j = bs[payPosition s j]?
  faults : ∀ k ≤ s.fullBlocks.toNat, sumPosition s k < n →
    (k ∈ t.faults ↔ bs[sumPosition s k]? ≠ some (checksum (blockPayload s bs k)))

/-- Before the first byte. -/
theorem ReadSoFar.start {s : State} (bs : List Byte) (h : StateInv s) (ha : AccInv s) (hp : s.status.ph = .active)
    (hwp : s.wp = 0) : ReadSoFar s bs 0 s where
  advanced := .start h hp
  acc := ha
  shape := ⟨rfl, rfl, rfl⟩
  raw := by rw [hwp]; nofun
  faults := nofun

section
variable {s t u : State} {bs : List Byte} {n : Nat}

/-- WP counts the payload of the bytes read, in the stream of `s` (R38 e). -/
theorem ReadSoFar.wp_eq (h : ReadSoFar s bs n t) (hne : t.status.ph ≠ .idle) :
    t.wp.toNat = payCount s t.pos.toNat := by
  rw [(h.advanced.inv.payload hne).1]
  simp only [payCount, h.advanced.layout.1]

/-- At the checksum byte of a block, the payload stored for it is the stream's (R106 item 1). -/
theorem ReadSoFar.stored_block {k : Nat} {ps : List Byte} (h : ReadSoFar s bs n t) (hrem : s.remainder.toNat < 64)
    (hlen : bs.length = s.streamLen) (hk : k ≤ s.fullBlocks.toNat) (hpos : t.pos.toNat = sumPosition s k)
    (hne : t.status.ph ≠ .idle) (hps : rawBytes t.raw (64 * k) (t.wp.toNat - 64 * k) = some ps) :
    ps = blockPayload s bs k := by
  have hwp : t.wp.toNat = 64 * k + blockSize s k := by rw [h.wp_eq hne, hpos, payCount_sumPosition hk hrem]
  obtain ⟨hpslen, hget⟩ := rawBytes_eq_some hps
  have hblen := length_blockPayload hk hlen
  refine List.ext_getElem? fun j => ?_
  rcases Nat.lt_or_ge j (blockSize s k) with hj | hj
  · rw [← hget j (by omega), h.raw _ (by omega), getElem?_blockPayload hrem hk bs hj]
  · rw [List.getElem?_eq_none (by omega), List.getElem?_eq_none (by omega)]

/-- RAW below WP is the payload of the bytes read, one byte later (R106 item 1). -/
theorem ReadSoFar.raw_of_rxStep (h : ReadSoFar s bs n t) (hrem : s.remainder.toNat < 64) (hpos : t.pos.toNat = n)
    (hp : t.status.ph = .active) (hn : n < bs.length) (hu : rxStep bs[n] t = .next u) :
    ∀ j < u.wp.toNat, rawGet u.raw j = bs[payPosition s j]? := by
  rcases rxStep_raw_cases hu with ⟨⟨hraw, hwp⟩, -⟩ | ⟨k, o, hr, -, hraw, -⟩
  · rw [hraw, hwp]
    exact h.raw
  · have hinv := h.advanced.inv
    intro j hj
    rw [hinv.rxStep_wp_of_pay hp hu hr] at hj
    rw [hraw, rawGet_rawSet]
    split_ifs with heq
    · have hplace := payPosition_of_role hrem (h.advanced.layout.1 ▸ hr)
      rw [heq, (hinv.wp_of_pay (ne_idle_of_active hp) hr).1, hplace, hpos, List.getElem?_eq_getElem hn]
    · exact h.raw j (by omega)

/-- A byte changes the fault bit of no block but its own (R99 b). -/
theorem mem_faults_rxStep_of_ne {b : Byte} {k : Nat} (hu : rxStep b t = .next u)
    (hr : t.roleAt t.pos.toNat ≠ .sum k) : k ∈ u.faults ↔ k ∈ t.faults := by
  rcases rxStep_faults_cases hu with ⟨hf, -⟩ | ⟨j, hr', hf, -⟩
  · rw [hf]
  · have hne : k ≠ j := fun heq => hr (heq ▸ hr')
    rw [hf, mem_faultSet, or_iff_right hne]

/-- FAULT is right for every block whose checksum byte has been read, one byte later (R106 item 2). -/
theorem ReadSoFar.faults_of_rxStep (h : ReadSoFar s bs n t) (hrem : s.remainder.toNat < 64)
    (hlen : bs.length = s.streamLen) (hpos : t.pos.toNat = n) (hp : t.status.ph = .active) (hn : n < bs.length)
    (hu : rxStep bs[n] t = .next u) : ∀ k ≤ s.fullBlocks.toNat, sumPosition s k < n + 1 →
      (k ∈ u.faults ↔ bs[sumPosition s k]? ≠ some (checksum (blockPayload s bs k))) := by
  intro k hk hlt
  have hrole := h.advanced.layout.1
  rcases Nat.lt_succ_iff_lt_or_eq.mp hlt with hlt | heq
  · have hother : t.roleAt t.pos.toNat ≠ .sum k := fun hr => by
      rw [hrole, hpos] at hr
      exact hlt.ne (sumPosition_of_role hr).2
    rw [mem_faults_rxStep_of_ne hu hother, h.faults k hk hlt]
  · have hr : t.roleAt t.pos.toNat = .sum k := by rw [hrole, hpos, ← heq, roleAt_sumPosition hk]
    have hacc := accInv_iff.mp h.acc hp
    rw [hr] at hacc
    obtain ⟨ps, hps, hsum⟩ := hacc
    have hblock := h.stored_block hrem hlen hk (hpos.trans heq.symm) (ne_idle_of_active hp) hps
    rw [h.advanced.inv.mem_faults_of_sum hr hu, sumByte_eq_checksum hsum, hblock, heq, List.getElem?_eq_getElem hn,
      Ne, Ne, Option.some_inj]

/-- One more byte. -/
theorem ReadSoFar.of_rxStep (h : ReadSoFar s bs n t) (hrem : s.remainder.toNat < 64) (h0 : s.pos = 0)
    (hlen : bs.length = s.streamLen) (hn : n < bs.length) (hu : rxStep bs[n] t = .next u) :
    ReadSoFar s bs (n + 1) u := by
  have hs0 : s.pos.toNat = 0 := by rw [h0]; rfl
  have hleft : s.pos.toNat + n < s.streamLen := by omega
  have hpos : t.pos.toNat = n := by rw [h.advanced.pos, hs0, Nat.zero_add]
  have hp : t.status.ph = .active := by rw [h.advanced.phase, if_neg hleft.ne]
  have hkept : u.byteCount = t.byteCount ∧ u.sampleCount = t.sampleCount := by rw [rxStep_frame hu]; exact ⟨rfl, rfl⟩
  obtain ⟨hbytes, hsamples, hcw⟩ := h.shape
  exact {
    advanced := h.advanced.of_rxStep hleft hu
    acc := h.acc.of_rxStep h.advanced.inv hp hu
    shape := ⟨hkept.1.trans hbytes, hkept.2.trans hsamples, (rxStep_iok_cw hu).2.trans hcw⟩
    raw := h.raw_of_rxStep hrem hpos hp hn hu
    faults := h.faults_of_rxStep hrem hlen hpos hp hn hu }

/-- A whole stream from an armed state (R106). -/
theorem runBytes_readSoFar (h : StateInv s) (ha : AccInv s) (hp : s.status.ph = .active) (h0 : s.pos = 0)
    (hwp : s.wp = 0) (hlen : bs.length = s.streamLen) :
    ∃ t, runBytes bs s = .next t ∧ ReadSoFar s bs bs.length t := by
  obtain ⟨-, hrem, -⟩ := h.byteCount_bounds
  refine runBytes_induction (.start bs h ha hp hwp) fun n hn t ht => ?_
  have hs0 : s.pos.toNat = 0 := by rw [h0]; rfl
  have hactive : t.status.ph = .active := by rw [ht.advanced.phase, if_neg (by omega)]
  obtain ⟨u, hu⟩ := ht.advanced.inv.exists_rxStep hactive bs[n]
  exact ⟨u, hu, ht.of_rxStep hrem h0 hlen hn hu⟩

end

/-! ### A completed read -/

/-- An RDSTART that answers OK is an accepted one (R95). -/
theorem rdstartAccepted_of_ok {wsel : BitVec 2} {c : BitVec 12} {a b : Word} {s t : State}
    (h : exec (.rdstart wsel c a b) s = .next t) (hrsp : t.rsp = some ⟨.ok, 0⟩) : RdstartAccepted wsel c a b s t := by
  rcases exec_eq_next h with ⟨r, -, hne, rfl⟩ | ⟨hi, -⟩ | ⟨_, _, _, _, hi, hacc⟩
  · exact absurd (congrArg Response.status (Option.some.inj hrsp)) (hne _ _ _ _ rfl)
  · simp at hi
  · obtain ⟨rfl, rfl, rfl, rfl⟩ := (Instr.rdstart.injEq ..).mp hi
    exact hacc

/-- RDSAMP of a finished read answers the decoded group of the bytes RAW holds (R103). -/
theorem exec_rdsamp_of_raw {s : State} {ps : List Byte} {n : Word} (h : StateInv s) (hd : s.status.ph = .done)
    (hraw : ∀ j < s.byteCount.toNat, rawGet s.raw j = ps[j]?) (hn : n.toNat < s.sampleCount.toNat) :
    exec (.rdsamp n) s = .next (s.withRsp (some ⟨.ok, BitVec.ofNat 32
      (dec ((ps.drop (n.toNat * sampleWidth s.status)).take (sampleWidth s.status)))⟩)) := by
  have hinside := h.sample_le_byteCount (by simp [hd]) hn
  obtain ⟨xs, hl⟩ := h.rawLoad_of_done hd hinside
  obtain ⟨-, -, hlen, hget⟩ := rawLoad_eq_ok hl
  have hxs : xs = (ps.drop (n.toNat * sampleWidth s.status)).take (sampleWidth s.status) := by
    refine List.ext_getElem? fun j => ?_
    rcases Nat.lt_or_ge j (sampleWidth s.status) with hj | hj
    · rw [List.getElem?_take_of_lt hj, List.getElem?_drop, ← hget j hj, hraw _ (by omega)]
    · rw [List.getElem?_eq_none (by omega), List.getElem?_take_eq_none hj]
  rw [exec_rdsamp_ok hd hn.not_ge hl, hxs]

/-- Settles O51: a whole stream has put each payload byte at its address, and RDSAMP reads them there. -/
theorem completedReadHoldsThePayload : Obligations.CompletedReadHoldsThePayload := by
  unfold Obligations.CompletedReadHoldsThePayload
  intro wsel c a b s0 s bs hs0 hexec hrsp hlen
  have hacc := rdstartAccepted_of_ok hexec hrsp
  have hinv := hs0.of_rdstart hacc
  have hpos : s.pos = 0 := by rw [hacc.arms]; rfl
  obtain ⟨t, hrun, hread⟩ := runBytes_readSoFar hinv (.of_rdstart hacc) (by rw [hacc.arms]; rfl) hpos
    (by rw [hacc.arms]; rfl) hlen
  obtain ⟨hbytes, hsamples, hcw⟩ := hread.shape
  have hdone : t.status.ph = .done := by rw [hread.advanced.phase, hpos, hlen]; simp
  obtain ⟨hpayload, hget⟩ := carriesPayload_streamPayload hinv hlen
  have hraw : ∀ j < t.byteCount.toNat, rawGet t.raw j = (streamPayload s bs)[j]? := fun j hj => by
    rw [hread.raw j (by rwa [hread.advanced.inv.wp_of_done hdone]), hget j (hbytes ▸ hj)]
  refine ⟨t, hrun, hdone, hpayload, hbytes ▸ hraw, fun k hk => hread.faults k hk ?_, fun n hn => ?_⟩
  · rw [hlen]
    exact (Nat.lt_succ_self _).trans (succ_lt_streamLength (.inr ⟨k, roleAt_sumPosition hk⟩))
  · have hwidth : sampleWidth t.status = sampleWidth s.status := by simp only [sampleWidth, hcw]
    rw [← hwidth]
    exact exec_rdsamp_of_raw hread.advanced.inv hdone hraw (hsamples ▸ hn)

end Sys2Proof.Machine
